-- ==== Sys2Proof/Word.lean ====
section
/-! DEFINITION. The word types of the CA1 core: bytes, the nine-bit program counter, register numbers. -/

namespace Sys2Proof

/-- A byte: a memory cell, a register's contents, an opcode or an operand (R8, R21, R50). -/
abbrev Byte := BitVec 8

/-- The width of the program counter and of the halt record's `info`, nine bits (R26, R31). -/
abbrev Pc := BitVec 9

/-- A register number 0 to 7 (R21, R84). A register operand of 8 to 255 names no register and cannot be written as
one: the decoder refuses the byte (R85), so every `Reg` is legal (DESIGN CHOICE of the type, safe, log 10). -/
abbrev Reg := Fin 8

/-- The stack pointer is register 7, one register with two names (R22, `SP_INDEX` of R6). -/
abbrev Reg.sp : Reg := 7

end Sys2Proof
end

