-- ==== Sys2Proof/Config.lean ====
section
/-! DEFINITION. What an implementation fixes: the parameters of R6, and the instruction set's mnemonics with the opcode byte
a parameter assignment gives each. There are no free values: the machine has no unspecified value that any rule uses (R121). -/

namespace Sys2Proof

/-- The thirteen mnemonics, in the order of the table of R86. -/
inductive Mnemonic where
  | hlt | ldi | prn | mul | add | push | pop | call | ret | cmp | jmp | jeq | jne
  deriving DecidableEq, Repr

/-- All thirteen, in the order of R86. -/
def Mnemonic.all : List Mnemonic :=
  [.hlt, .ldi, .prn, .mul, .add, .push, .pop, .call, .ret, .cmp, .jmp, .jeq, .jne]

/-- What an operand byte means; the kind is fixed per instruction (R83). -/
inductive OperandKind where
  /-- A register number, the whole byte, legal 0 to 7 (R84, R85). -/
  | reg
  /-- An immediate, every byte legal (R90). -/
  | imm
  deriving DecidableEq, Repr

/-- The operand columns of R86: the kinds of operand A and operand B, as far as the instruction has them. -/
def Mnemonic.kinds : Mnemonic → List OperandKind
  | .hlt => []
  | .ldi => [.reg, .imm]
  | .prn => [.reg]
  | .mul => [.reg, .reg]
  | .add => [.reg, .reg]
  | .push => [.reg]
  | .pop => [.reg]
  | .call => [.reg]
  | .ret => []
  | .cmp => [.reg, .reg]
  | .jmp => [.reg]
  | .jeq => [.reg]
  | .jne => [.reg]

/-- The `cnt` column of R86: how many operand bytes follow the opcode byte. -/
def Mnemonic.count (m : Mnemonic) : Nat := m.kinds.length

/-- The implementation parameters of R6 that the spec leaves open. The values a machine of this spec may give them are
`Config.wf` (WellFormed.lean); the spec's defaults are `Config.default` (Decode.lean). -/
structure Config where
  /-- `MEM_SIZE`, written N: the number of bytes of memory, 1 to 256 (R6, R50, D3). -/
  memSize : Nat
  /-- `STRICT_READAHEAD`: whether an out-of-range read-ahead faults even where its byte is not consumed (R112, D5). -/
  strictReadAhead : Bool
  /-- The ten opcode bytes the source does not give (R88, R89, D14). -/
  opcMul : Byte
  opcAdd : Byte
  opcPush : Byte
  opcPop : Byte
  opcCall : Byte
  opcRet : Byte
  opcCmp : Byte
  opcJmp : Byte
  opcJeq : Byte
  opcJne : Byte
  /-- `RESET_R[0]` to `RESET_R[6]`: the reset values of R0 to R6 (R230, D13). -/
  resetR : Vector Byte 7
  /-- `RESET_SP`: the reset value of R7 (R230, D13). -/
  resetSp : Byte
  /-- `RESET_E`: the reset value of the Equality flag (R230, D13). -/
  resetE : Bool
  deriving DecidableEq, Repr

/-- The opcode byte column of R86. Three bytes are the source's own (R87); ten are parameters (R88). -/
def Config.opcode (c : Config) : Mnemonic → Byte
  | .hlt => 0x01#8
  | .ldi => 0x99#8
  | .prn => 0x43#8
  | .mul => c.opcMul
  | .add => c.opcAdd
  | .push => c.opcPush
  | .pop => c.opcPop
  | .call => c.opcCall
  | .ret => c.opcRet
  | .cmp => c.opcCmp
  | .jmp => c.opcJmp
  | .jeq => c.opcJeq
  | .jne => c.opcJne

end Sys2Proof
end

