-- ==== Sys2Proof/Syntax.lean ====
section
/-! DEFINITION. The instruction set: one constructor per row of spec/opcode_table.json, in the table's order (R86). -/

namespace Sys2Proof

/-- The thirteen instructions (R86). A register operand is a `Reg`, legal by its type (R85); the immediate of LDI is a
byte (R90). -/
inductive Instr where
  /-- HLT: halt (R140). -/
  | hlt
  /-- LDI: load immediate (R141). -/
  | ldi (a : Reg) (b : Byte)
  /-- PRN: print a register (R142). -/
  | prn (a : Reg)
  /-- MUL: multiply (R150). -/
  | mul (a b : Reg)
  /-- ADD: add (R151). -/
  | add (a b : Reg)
  /-- PUSH: push a register (R160). -/
  | push (a : Reg)
  /-- POP: pop into a register (R161). -/
  | pop (a : Reg)
  /-- CALL: call the subroutine whose address is in a register (R170). -/
  | call (a : Reg)
  /-- RET: return from subroutine (R171). -/
  | ret
  /-- CMP: compare two registers for equality (R180). -/
  | cmp (a b : Reg)
  /-- JMP: jump to the address in a register (R181). -/
  | jmp (a : Reg)
  /-- JEQ: jump if equal (R182). -/
  | jeq (a : Reg)
  /-- JNE: jump if not equal (R183). -/
  | jne (a : Reg)
  deriving DecidableEq, Repr

/-- The row of R86 an instruction belongs to. -/
def Instr.mnemonic : Instr → Mnemonic
  | .hlt => .hlt
  | .ldi _ _ => .ldi
  | .prn _ => .prn
  | .mul _ _ => .mul
  | .add _ _ => .add
  | .push _ => .push
  | .pop _ => .pop
  | .call _ => .call
  | .ret => .ret
  | .cmp _ _ => .cmp
  | .jmp _ => .jmp
  | .jeq _ => .jeq
  | .jne _ => .jne

/-- How many bytes an instruction takes: its opcode byte and its operand bytes (R80, R93). -/
def Instr.length (i : Instr) : Nat := 1 + i.mnemonic.count

end Sys2Proof
end

