-- ==== Sys2Proof/WellFormed.lean ====
section
/-! DEFINITION. What a machine of this spec may be given: the legal parameters (R6, R89) and the legal encoded
instructions (R81 to R85). An `Instr` needs no check of its own: its register operands are numbers 0 to 7 by their type, so
an ill-formed one cannot be built; the check of R85 stands where the bytes are, in `wellFormedWords` here and in the decoder. -/

namespace Sys2Proof

/-- `MEM_SIZE` is 1 to 256 (R6, D3); a machine of another size is outside the spec (U10). -/
def Config.memSizeLegal (c : Config) : Bool := decide (1 ≤ c.memSize) && decide (c.memSize ≤ 256)

/-- Bits 7:6 of every opcode byte are the instruction's operand count (R81, R89 a). -/
def Config.countBitsLegal (c : Config) : Bool :=
  Mnemonic.all.all fun m => (c.opcode m >>> 6).toNat == m.count

/-- The thirteen opcode bytes are pairwise distinct, the source's three among them (R89 b, c). -/
def Config.opcodesDistinct (c : Config) : Bool := decide (Mnemonic.all.map c.opcode).Nodup

/-- The parameter assignments of R6 that make a machine of this spec. -/
def Config.wf (c : Config) : Bool := c.memSizeLegal && c.countBitsLegal && c.opcodesDistinct

/-- Whether a byte may stand as an operand of this kind: a register operand is 0 to 7 (R85), an immediate any byte (R90). -/
def OperandKind.legal : OperandKind → Byte → Bool
  | .reg, b => decide (b.toNat < 8)
  | .imm, _ => true

/-- Whether these operand bytes are exactly the operands of `m`: as many as R86 gives it, each legal for its kind. -/
def operandsLegal : List OperandKind → List Byte → Bool
  | [], [] => true
  | k :: ks, b :: bs => k.legal b && operandsLegal ks bs
  | _, _ => false

/-- Whether a byte string is one encoded instruction and nothing more: an opcode byte of the table, then that row's
operand bytes (R81 to R86, R91, R92). -/
def wellFormedWords (c : Config) : List Byte → Bool
  | [] => false
  | ir :: ops => Mnemonic.all.any fun m => c.opcode m == ir && operandsLegal m.kinds ops

end Sys2Proof
end

