-- ==== Sys2Proof/Decode.lean ====
section
/-! DEFINITION. The decoder (R81 to R94), the encoder written from the same tables (R82, R86), the default parameters (R6,
R88), and `decodeTableWord` for the host. -/

namespace Sys2Proof

/-- The default parameters (R6). The ten opcode bytes are the spec's defaults, which it supplies from general knowledge
(R88, G1; PRESUMED, unsafe, log 3); the reset values are the spec's default zeros (D13; DESIGN CHOICE, unsafe, log 4). -/
def Config.default : Config where
  memSize := 256
  strictReadAhead := false
  opcMul := 0xAA#8
  opcAdd := 0xA8#8
  opcPush := 0x4D#8
  opcPop := 0x4C#8
  opcCall := 0x48#8
  opcRet := 0x09#8
  opcCmp := 0xA0#8
  opcJmp := 0x50#8
  opcJeq := 0x51#8
  opcJne := 0x52#8
  resetR := #v[0#8, 0#8, 0#8, 0#8, 0#8, 0#8, 0#8]
  resetSp := 0x00#8
  resetE := false

/-- Why the decoder answers no instruction. -/
inductive DecodeError where
  /-- There is no opcode byte: an empty byte string. Fetch never hands one over, since R111 faults first. -/
  | noOpcode
  /-- The opcode byte is not in the table (R91), or a register operand is 8 to 255 (R85); the offending byte. -/
  | illegal (v : Byte)
  /-- The instruction consumes the operand byte at this offset from its opcode byte, and there is none (R113). -/
  | operandMissing (k : Nat)
  deriving DecidableEq, Repr

/-- "Match IR against the fixed opcode table": the whole byte against the thirteen rows (R81, R114). -/
def Config.mnemonicOf (c : Config) (ir : Byte) : Option Mnemonic :=
  Mnemonic.all.find? fun m => c.opcode m == ir

/-- The register a register operand names: the whole byte, 0 to 7, never masked (R84, R85). -/
def regOfByte (b : Byte) : Except DecodeError Reg :=
  if h : b.toNat < 8 then .ok ⟨b.toNat, h⟩ else .error (.illegal b)

/-- Format F1 (R82): operand A must be there (R113), then must name a register (R85). -/
def operandsF1 (mk : Reg → Instr) : List Byte → Except DecodeError Instr
  | [] => .error (.operandMissing 1)
  | a :: _ =>
    match regOfByte a with
    | .error e => .error e
    | .ok r => .ok (mk r)

/-- Format F2 with two register operands (R82): both bytes must be there (R113), then A is checked before B (R85). -/
def operandsF2Regs (mk : Reg → Reg → Instr) : List Byte → Except DecodeError Instr
  | [] => .error (.operandMissing 1)
  | [_] => .error (.operandMissing 2)
  | a :: b :: _ =>
    match regOfByte a with
    | .error e => .error e
    | .ok r =>
      match regOfByte b with
      | .error e => .error e
      | .ok q => .ok (mk r q)

/-- Format F2 with an immediate (R82): both bytes must be there, A names a register, B is never checked (R85, R90). -/
def operandsF2Imm (mk : Reg → Byte → Instr) : List Byte → Except DecodeError Instr
  | [] => .error (.operandMissing 1)
  | [_] => .error (.operandMissing 2)
  | a :: b :: _ =>
    match regOfByte a with
    | .error e => .error e
    | .ok r => .ok (mk r b)

/-- The operand bytes of a recognised instruction, read as its row of R86 says. Bytes beyond its own are ignored (R83). -/
def decodeOperands (m : Mnemonic) (ops : List Byte) : Except DecodeError Instr :=
  match m with
  | .hlt => .ok .hlt
  | .ldi => operandsF2Imm .ldi ops
  | .prn => operandsF1 .prn ops
  | .mul => operandsF2Regs .mul ops
  | .add => operandsF2Regs .add ops
  | .push => operandsF1 .push ops
  | .pop => operandsF1 .pop ops
  | .call => operandsF1 .call ops
  | .ret => .ok .ret
  | .cmp => operandsF2Regs .cmp ops
  | .jmp => operandsF1 .jmp ops
  | .jeq => operandsF1 .jeq ops
  | .jne => operandsF1 .jne ops

/-- The decoder of R94 on the bytes that stand at the opcode byte's address and after it: total, with the order of tests
of R206 items 3 to 7 (opcode, presence of A, presence of B, register A, register B). -/
def decode (c : Config) : List Byte → Except DecodeError Instr
  | [] => .error .noOpcode
  | ir :: ops =>
    match c.mnemonicOf ir with
    | none => .error (.illegal ir)
    | some m => decodeOperands m ops

/-- A register number as an operand byte (R84). -/
def byteOfReg (r : Reg) : Byte := BitVec.ofNat 8 r.val

/-- The operand bytes of an instruction, A then B (R82, R83). -/
def Instr.operandBytes : Instr → List Byte
  | .hlt => []
  | .ldi a b => [byteOfReg a, b]
  | .prn a => [byteOfReg a]
  | .mul a b => [byteOfReg a, byteOfReg b]
  | .add a b => [byteOfReg a, byteOfReg b]
  | .push a => [byteOfReg a]
  | .pop a => [byteOfReg a]
  | .call a => [byteOfReg a]
  | .ret => []
  | .cmp a b => [byteOfReg a, byteOfReg b]
  | .jmp a => [byteOfReg a]
  | .jeq a => [byteOfReg a]
  | .jne a => [byteOfReg a]

/-- The bytes of an instruction, lowest address first: opcode, operand A, operand B (R58, R80, R82). -/
def encode (c : Config) (i : Instr) : List Byte := c.opcode i.mnemonic :: i.operandBytes

/-- The three bytes the host's numbering of an instruction's bits stands for: bit 0 is the least significant bit of the
first byte, and every bit at or above `nbits` is 0. -/
def tableBytes (nbits w : Nat) : List Byte :=
  [BitVec.ofNat 8 (w % 2 ^ nbits), BitVec.ofNat 8 (w % 2 ^ nbits / 256), BitVec.ofNat 8 (w % 2 ^ nbits / 65536)]

/-- The instruction the decoder reads, under the default parameters, from an instruction whose bits are `w`, numbered as
spec/opcode_table.json numbers them. -/
def decodeTableWord (nbits w : Nat) : Option Instr :=
  match decode Config.default (tableBytes nbits w) with
  | .ok i => some i
  | .error _ => none

end Sys2Proof
end

