-- ==== Sys2Proof/Machine/State.lean ====
section
/-! DEFINITION. The state of the machine (R20), its faults and refusals, and the state after reset (R230). -/

namespace Sys2Proof.Machine

/-- The run state: Running or Halted (R29). -/
inductive RunState where
  | running
  | halted
  deriving DecidableEq, Repr

/-- Why the machine halted (R30, R201). -/
inductive Cause where
  /-- The value while the machine is Running. -/
  | none
  /-- The HLT instruction executed. -/
  | hlt
  /-- Decode found no instruction: an unrecognised opcode byte, or a register operand of 8 to 255. -/
  | illegalInstruction
  /-- A memory access outside 0 to N-1. -/
  | memoryFault
  deriving DecidableEq, Repr

/-- The encoding of `cause` (R201, D15). -/
def Cause.code : Cause → Nat
  | .none => 0
  | .hlt => 1
  | .illegalInstruction => 2
  | .memoryFault => 3

/-- The two fault conditions of the machine (R200, R201). They are what the shared operations raise; `State.raise` then
takes the fault as R203 and R204 describe it, which is a NEXT state (Halted, with the halt record). So no step of this
model answers `Host.Outcome.fault` (DESIGN CHOICE, log 8): that is safe, since the spec gives the whole effect of a fault (R205). -/
inductive Fault where
  /-- Raised by a memory access outside 0 to N-1: the fetch of the opcode byte, a consumed operand byte or a strict
  read-ahead, the stack access of PUSH, POP, CALL and RET (R203). Safe: taken as the halt the spec describes. -/
  | memoryFault (addr : Nat)
  /-- Raised by decode for an opcode byte outside the table or a register operand of 8 to 255 (R204, R85). Safe: taken as
  the halt the spec describes. -/
  | illegalInstruction (v : Byte)
  deriving DecidableEq, Repr

/-- Why a step has no meaning in this model. -/
inductive Refusal where
  /-- An instruction without a meaning yet. Raised by no arm of `exec`: all thirteen instructions have a meaning. Safe. -/
  | notModelled (mnemonic : String)
  /-- Raised by `step` in a Running machine whose parameters are outside what the spec allows: MEM_SIZE not 1 to 256, or
  opcode bytes that break R89. Such a machine is outside the spec (U10, D3, R89). Safe: nothing is claimed of it (DESIGN CHOICE, log 2). -/
  | configOutsideSpec
  deriving DecidableEq, Repr

/-- Memory: the bytes that are not `0x00`, by address, in one canonical form (`Memory.wf`). An unlisted address reads as
`0x00`, the reset contents of every byte (R50, R230; the form is a DESIGN CHOICE, safe, log 18). -/
abbrev Memory := List Host.Cell

/-- What an address that no entry lists reads as (R50 "zero-initialized", R63). -/
def Memory.unlisted : Byte := 0x00#8

/-- Every address listed here is above `a`. -/
def Memory.allAbove (a : Nat) (m : Memory) : Bool := m.all fun e => decide (a < e.1)

/-- The canonical form: addresses strictly rising, and no entry equal to what an unlisted address reads as. -/
def Memory.wf : Memory → Bool
  | [] => true
  | e :: m => e.2 != Memory.unlisted && Memory.allAbove e.1 m && Memory.wf m

/-- The complete state of the machine (R20). -/
structure State where
  /-- The parameters the machine was constructed with (R6, R37). Model's own field (DESIGN CHOICE, safe, log 1): no step changes it. -/
  cfg : Config
  /-- The registers R0 to R7; R7 is the stack pointer SP (R21, R22). -/
  x : Vector Byte 8
  /-- The program counter (R25, R26). -/
  pc : Pc
  /-- The Equality flag E (R27). -/
  e : Bool
  /-- Running or Halted (R29). -/
  run : RunState
  /-- The halt record: why the machine halted (R30). -/
  cause : Cause
  /-- The halt record: one number about the halt (R31). -/
  info : Pc
  /-- The memory `Mem[0]` to `Mem[N-1]` (R33, R50). -/
  mem : Memory
  /-- The output channel: the bytes PRN has emitted since reset, oldest first (R34). -/
  out : List Byte
  deriving DecidableEq, Repr

/-- The machine right after reset, for any parameters (R230, R231, R20's last column). -/
def State.construct (c : Config) : State where
  cfg := c
  x := c.resetR.push c.resetSp
  pc := 0#9
  e := c.resetE
  run := .running
  cause := .none
  info := 0#9
  mem := []
  out := []

/-- The machine right after reset with the spec's default parameters (R6, R230). -/
def State.reset : State := State.construct Config.default

/-- The status a step returns, as a function of the state after it (R118, D20). -/
inductive Status where
  /-- "continue". -/
  | continues
  /-- "halted". -/
  | halted
  deriving DecidableEq, Repr

end Sys2Proof.Machine
end

