-- ==== Sys2Proof/Machine/Ops.lean ====
section
/-! DEFINITION. The named operations over registers, the program counter, the flag, memory, the stack pointer, the output
channel and the halt record. Every meaning is written over these. -/

namespace Sys2Proof.Machine

/-- `low8(v)`: the integer `v` reduced modulo 256 to a byte (R8). -/
def low8 (n : Nat) : Byte := BitVec.ofNat 8 n

/-- `zext_9(v)`: the byte as a nine-bit unsigned value, the same number (R8). -/
def zext9 (b : Byte) : Pc := b.setWidth 9

/-- `x[r]` (R9, R21). No register is hardwired. -/
def State.reg (s : State) (r : Reg) : Byte := s.x[r]

/-- `x[r] <- v` (R9, R21). Register 7 is SP, the same storage (R22). -/
def State.setReg (s : State) (r : Reg) (v : Byte) : State := { s with x := s.x.set r v }

/-- `pc <- v` (R9): a control transfer sets the program counter itself (R116). -/
def State.setPc (s : State) (v : Pc) : State := { s with pc := v }

/-- The generic advance of R117, `pc <- a + 1 + cnt`, for an instruction with `cnt` operand bytes. An instruction runs
only where `a < N <= 256`, so the nine-bit sum never wraps there (R26; DESIGN CHOICE, safe, log 23). -/
def State.advance (s : State) (cnt : Nat) : State := s.setPc (s.pc + BitVec.ofNat 9 (1 + cnt))

/-- `E <- b` (R9, R27). -/
def State.setE (s : State) (b : Bool) : State := { s with e := b }

/-- `Out(v)`: append the byte to the output channel (R9, R142). -/
def State.emit (s : State) (v : Byte) : State := { s with out := s.out ++ [v] }

/-- The byte a memory holds at an address; an unlisted address reads as `0x00` (R50). -/
def Memory.get : Memory → Nat → Byte
  | [], _ => Memory.unlisted
  | e :: m, a => if e.1 = a then e.2 else Memory.get m a

/-- A listed entry, or nothing where the byte is what an unlisted address reads as: the canonical form's rule. -/
def Memory.entry (a : Nat) (v : Byte) (m : Memory) : Memory :=
  if v = Memory.unlisted then m else (a, v) :: m

/-- `Mem[a] <- v`: this one byte and nothing else (R50, R53), keeping the canonical form. -/
def Memory.set : Memory → Nat → Byte → Memory
  | [], a, v => Memory.entry a v []
  | e :: m, a, v =>
    if a < e.1 then Memory.entry a v (e :: m)
    else if a = e.1 then Memory.entry a v m
    else e :: Memory.set m a v

/-- The byte the state's memory holds at an address, with no check of the address: what claims about memory read. -/
def State.byteAt (s : State) (a : Nat) : Byte := s.mem.get a

/-- `MemRead(addr, 1)` (R52): the byte, or MemoryFault outside 0 to N-1. Never clamped, never wrapped (R54). -/
def State.memRead (s : State) (addr : Nat) : Except Fault Byte :=
  if addr < s.cfg.memSize then .ok (s.byteAt addr) else .error (.memoryFault addr)

/-- `MemWrite(addr, 1, v)` (R53): one byte changes, or MemoryFault outside 0 to N-1 and none does. -/
def State.memWrite (s : State) (addr : Nat) (v : Byte) : Except Fault State :=
  if addr < s.cfg.memSize then .ok { s with mem := s.mem.set addr v } else .error (.memoryFault addr)

/-- The stack pointer's value, `sp`, another name of `x[7]` (R22). -/
def State.sp (s : State) : Byte := s.reg Reg.sp

/-- `SP := SP + 1` modulo 256, reading `x[7]` as it now stands (R24, R162). -/
def State.spUp (s : State) : State := s.setReg Reg.sp (s.sp + 1#8)

/-- `SP := SP - 1` modulo 256 with the new address tested before SP is written (R24, R160, R170, R205). -/
def State.spDown (s : State) : Except Fault State :=
  if (s.sp - 1#8).toNat < s.cfg.memSize then .ok (s.setReg Reg.sp (s.sp - 1#8))
  else .error (.memoryFault (s.sp - 1#8).toNat)

/-- The byte at the top of the stack, `Mem[sp]` (R161, R171). -/
def State.top (s : State) : Except Fault Byte := s.memRead s.sp.toNat

/-- `Memory[SP] := v` at the stack pointer as it now stands (R160, R170). -/
def State.storeTop (s : State) (v : Byte) : Except Fault State := s.memWrite s.sp.toNat v

/-- Halt with a record: `run <- Halted; cause <- c; info <- n` and nothing else (R30, R31, R140, R203, R204). -/
def State.halt (s : State) (c : Cause) (n : Pc) : State := { s with run := .halted, cause := c, info := n }

/-- Taking a fault, this machine's only exception: the step ends, the halt record is written, and every other piece of
state is as it was in `s`, the state at the start of the step (R203, R204, R205, R208). There is no handler, nothing is
saved, and there is no return from it: Halted is terminal (R209). -/
def State.raise (s : State) : Fault → State
  | .memoryFault addr => s.halt .memoryFault (BitVec.ofNat 9 addr)
  | .illegalInstruction v => s.halt .illegalInstruction (zext9 v)

/-- The end of an execute phase that began in `s`: its result, or, where a fault was raised, the fault taken in `s`
itself, so that nothing the phase did before is kept (R119, R205). -/
def State.settle (s : State) : Except Fault State → Host.Outcome State Fault Refusal
  | .ok t => .next t
  | .error f => .next (s.raise f)

/-- The status a step returns, from the state after it (R118). -/
def State.status (s : State) : Status :=
  match s.run with
  | .running => .continues
  | .halted => .halted

end Sys2Proof.Machine
end

