-- ==== Sys2Proof/Machine/Console.lean ====
section
/-! DEFINITION. The console's text of the output channel (R142, R239). The console is outside the core (R4 d); its
formatting is kept because the spec states it. -/

namespace Sys2Proof.Machine

/-- One value as the console writes it: an unsigned decimal integer without leading zeros or sign (R142). -/
def consoleLine (v : Byte) : List Char := Nat.toDigits 10 v.toNat

/-- The line end that follows each value. R142 says "a line end" and not which character: one newline character (DESIGN
CHOICE, safe, log 21). -/
def lineEnd : List Char := ['\n']

/-- The whole text of a channel: one line per value, each followed by a line end (R142). -/
def consoleText (out : List Byte) : List Char := out.flatMap fun v => consoleLine v ++ lineEnd

end Sys2Proof.Machine
end

