-- ==== Sys2Proof/Machine/Operands.lean ====
section
/-! DEFINITION. The operand forms: the fetch unit's reads of the opcode byte and the operand slots (R111, R112), and the
branch target a register holds (R185). The operand bytes' meaning is in Decode.lean. -/

namespace Sys2Proof.Machine

/-- `ReadAhead(addr)` (R112): the byte of an operand slot, `none` where it lies outside memory and the machine does not
fault on it. The spec's "unspecified byte" of that case is never used; here there simply is none (DESIGN CHOICE, safe, log 7). -/
def State.readAhead (s : State) (addr : Nat) : Except Fault (Option Byte) :=
  if addr < s.cfg.memSize then .ok (some (s.byteAt addr))
  else if s.cfg.strictReadAhead then .error (.memoryFault addr)
  else .ok none

/-- The fetch of one step (R57, R111, R112): the opcode byte at `pc`, then the two operand slots in order, as the list of
the bytes that exist. The addresses are integers and do not wrap (R112). -/
def State.fetchBytes (s : State) : Except Fault (List Byte) :=
  match s.memRead s.pc.toNat with
  | .error f => .error f
  | .ok ir =>
    match s.readAhead (s.pc.toNat + 1) with
    | .error f => .error f
    | .ok a =>
      match s.readAhead (s.pc.toNat + 2) with
      | .error f => .error f
      | .ok b => .ok (ir :: (a.toList ++ b.toList))

/-- The fault a decode error raises for the instruction at `pc`: a missing operand byte is a MemoryFault at its address
(R113), an illegal byte an IllegalInstruction (R204). -/
def State.decodeFault (s : State) : DecodeError → Fault
  | .noOpcode => .memoryFault s.pc.toNat
  | .illegal v => .illegalInstruction v
  | .operandMissing k => .memoryFault (s.pc.toNat + k)

/-- Fetch and decode, the first two phases of a step (R111 to R114), with the order of tests of R206 items 1 to 7. -/
def State.fetch (s : State) : Except Fault Instr :=
  match s.fetchBytes with
  | .error f => .error f
  | .ok bytes =>
    match decode s.cfg bytes with
    | .error e => .error (s.decodeFault e)
    | .ok i => .ok i

/-- The target of a control transfer through a register: the byte as an absolute address, zero-extended (R185). -/
def State.target (s : State) (r : Reg) : Pc := zext9 (s.reg r)

end Sys2Proof.Machine
end

