-- ==== Sys2Proof/Machine/Alu.lean ====
section
/-! DEFINITION. MUL, ADD: the ALU of 42_alu.md. -/

namespace Sys2Proof.Machine

/-- The ALU's product: the exact integer product of two unsigned bytes, its low eight bits kept (R150, R152). -/
def aluMul (u v : Byte) : Byte := low8 (u.toNat * v.toNat)

/-- The ALU's sum: the exact integer sum of two unsigned bytes, its low eight bits kept (R151, R152). -/
def aluAdd (u v : Byte) : Byte := low8 (u.toNat + v.toNat)

/-- MUL (R150): both registers are read before the write, no flag is written. -/
def execMul (a b : Reg) (s : State) : Host.Outcome State Fault Refusal :=
  .next ((s.setReg a (aluMul (s.reg a) (s.reg b))).advance 2)

/-- ADD (R151): both registers are read before the write, no flag is written. -/
def execAdd (a b : Reg) (s : State) : Host.Outcome State Fault Refusal :=
  .next ((s.setReg a (aluAdd (s.reg a) (s.reg b))).advance 2)

end Sys2Proof.Machine
end

