-- ==== Sys2Proof/Machine/CallReturn.lean ====
section
/-! DEFINITION. CALL, RET: the meanings of 44_call_return.md. Both are control transfers: no generic advance (R116). -/

namespace Sys2Proof.Machine

/-- The return address CALL stores: the low eight bits of `a + 2`, the address of the next instruction (R170, D10). -/
def State.returnByte (s : State) : Byte := low8 (s.pc.toNat + 2)

/-- CALL (R170): `SP := SP - 1; Memory[SP] := PC + 2; PC := R[A]`, where `x[A]` is read after SP was written. -/
def execCall (a : Reg) (s : State) : Host.Outcome State Fault Refusal :=
  s.settle <|
    match s.spDown with
    | .error f => .error f
    | .ok s1 =>
      match s1.storeTop s1.returnByte with
      | .error f => .error f
      | .ok s2 => .ok (s2.setPc (s2.target a))

/-- RET (R171): `PC := Memory[SP]; SP := SP + 1`. -/
def execRet (s : State) : Host.Outcome State Fault Refusal :=
  s.settle <|
    match s.top with
    | .error f => .error f
    | .ok v => .ok ((s.setPc (zext9 v)).spUp)

end Sys2Proof.Machine
end

