-- ==== Sys2Proof/Machine/Flags.lean ====
section
/-! DEFINITION. The one flag, E: how CMP computes it (R27, R180). No other instruction writes a flag. -/

namespace Sys2Proof.Machine

/-- "Flag E := 1 if R[A] == R[B] else 0": all eight bits, no sign (R27, R180). -/
def equalFlag (u v : Byte) : Bool := u == v

end Sys2Proof.Machine
end

