-- ==== Sys2Proof/Machine/CompareBranch.lean ====
section
/-! DEFINITION. CMP, JMP, JEQ, JNE: the meanings of 45_compare_branch.md. -/

namespace Sys2Proof.Machine

/-- CMP (R180): E is always written, to 1 or to 0. -/
def execCmp (a b : Reg) (s : State) : Host.Outcome State Fault Refusal :=
  .next ((s.setE (equalFlag (s.reg a) (s.reg b))).advance 2)

/-- JMP (R181): `PC := R[A]`, a control transfer. -/
def execJmp (a : Reg) (s : State) : Host.Outcome State Fault Refusal :=
  .next (s.setPc (s.target a))

/-- JEQ (R182): taken when E is 1, else the generic advance. -/
def execJeq (a : Reg) (s : State) : Host.Outcome State Fault Refusal :=
  if s.e then .next (s.setPc (s.target a)) else .next (s.advance 1)

/-- JNE (R183): taken when E is 0, else the generic advance. -/
def execJne (a : Reg) (s : State) : Host.Outcome State Fault Refusal :=
  if s.e then .next (s.advance 1) else .next (s.setPc (s.target a))

end Sys2Proof.Machine
end

