-- ==== Sys2Proof/Machine/Stack.lean ====
section
/-! DEFINITION. PUSH, POP: the meanings of 43_stack.md, their sub-operations in the order written there (D11). -/

namespace Sys2Proof.Machine

/-- PUSH (R160): `SP := SP - 1; Memory[SP] := R[A]`, where `x[A]` is read after SP was written. -/
def execPush (a : Reg) (s : State) : Host.Outcome State Fault Refusal :=
  s.settle <|
    match s.spDown with
    | .error f => .error f
    | .ok s1 =>
      match s1.storeTop (s1.reg a) with
      | .error f => .error f
      | .ok s2 => .ok (s2.advance 1)

/-- POP (R161): `R[A] := Memory[SP]; SP := SP + 1`, where `x[7]` is read for the increment after `x[A]` was written. -/
def execPop (a : Reg) (s : State) : Host.Outcome State Fault Refusal :=
  s.settle <|
    match s.top with
    | .error f => .error f
    | .ok v => .ok ((s.setReg a v).spUp.advance 1)

end Sys2Proof.Machine
end

