-- ==== Sys2Proof/Machine/SystemMove.lean ====
section
/-! DEFINITION. HLT, LDI, PRN: the meanings of 41_system_move_output.md. Each is the execute phase and the advance of an
instruction whose opcode byte is at `s.pc` (R115, R117). -/

namespace Sys2Proof.Machine

/-- HLT (R140): the halt record gets the address of the HLT byte, and the generic advance applies. -/
def execHlt (s : State) : Host.Outcome State Fault Refusal :=
  .next ((s.halt .hlt s.pc).advance 0)

/-- LDI (R141): `x[A] <- B`. -/
def execLdi (a : Reg) (b : Byte) (s : State) : Host.Outcome State Fault Refusal :=
  .next ((s.setReg a b).advance 2)

/-- PRN (R142): `Out(x[A])`. -/
def execPrn (a : Reg) (s : State) : Host.Outcome State Fault Refusal :=
  .next ((s.emit (s.reg a)).advance 1)

end Sys2Proof.Machine
end

