-- ==== Sys2Proof/Machine/Loader.lean ====
section
/-! DEFINITION. The host's side of memory: `load`, a program image, and the image's text format (R233, R237, R238). The
loader itself is outside the core (R4 a); its rules are kept because the spec states them. -/

namespace Sys2Proof.Machine

/-- `load(address, byte)`, between steps (R237): one byte in range, and nothing at all out of range (D17). It never
changes the run state: a halted machine is not restarted. -/
def State.load (s : State) (addr : Nat) (v : Byte) : State :=
  match s.memWrite addr v with
  | .ok t => t
  | .error _ => s

/-- Bytes loaded at consecutive addresses from `addr` on (R233). -/
def State.loadFrom (s : State) (addr : Nat) : List Byte → State
  | [] => s
  | v :: vs => (s.load addr v).loadFrom (addr + 1) vs

/-- The initial state of a run: the parameters and the program image, byte `i` of it at address `i` (R231, R233). -/
def State.boot (c : Config) (image : List Byte) : State := (State.construct c).loadFrom 0 image

/-- White space around a line of the image text (R238; which characters is a DESIGN CHOICE, unsafe for image texts, log 20). -/
def isBlank (ch : Char) : Bool := ch == ' ' || ch == '\t' || ch == '\r'

/-- A binary digit of the image text (R238). -/
def binaryDigit (ch : Char) : Option Nat :=
  if ch = '0' then some 0 else if ch = '1' then some 1 else none

/-- The value of a string of binary digits, leftmost digit most significant, after `acc` (R238). -/
def binaryValue (acc : Nat) : List Char → Option Nat
  | [] => some acc
  | ch :: cs =>
    match binaryDigit ch with
    | some d => binaryValue (2 * acc + d) cs
    | none => none

/-- A line without its comment and without the white space around it (R238). -/
def lineBody (line : List Char) : List Char :=
  (((line.takeWhile (· != '#')).dropWhile isBlank).reverse.dropWhile isBlank).reverse

/-- One line of the image text: its byte, or `none` for a line the loader skips, blank, comment-only or malformed (R217,
R238). The leftmost digit is bit 7. -/
def parseLine (line : List Char) : Option Byte :=
  if (lineBody line).length = 8 then (binaryValue 0 (lineBody line)).map low8 else none

/-- The program image of a text, line by line; a skipped line uses no address (R238). -/
def parseImage (lines : List (List Char)) : List Byte := lines.filterMap parseLine

end Sys2Proof.Machine
end

