-- ==== Sys2Proof/Machine/Step.lean ====
section
/-! DEFINITION. One step of the machine (R110, R120), and the host's placing of an instruction where the step fetches. -/

namespace Sys2Proof.Machine

/-- `step()` (R110 to R120). In Halted it changes nothing. In Running it fetches and decodes, takes the fault where that
raises one, and else executes the one instruction; `exec` advances or transfers the program counter. A machine with
parameters outside the spec is refused (U10, R89; DESIGN CHOICE, safe, log 2). -/
def step (s : State) : Host.Outcome State Fault Refusal :=
  match s.run with
  | .halted => .next s
  | .running =>
    if s.cfg.wf then
      match s.fetch with
      | .error f => .next (s.raise f)
      | .ok i => exec i s
    else .refused .configOutsideSpec

/-- `s` with the instruction whose bits are `w`, numbered as spec/opcode_table.json numbers them, loaded at `pc`, where
`step` fetches next (R237; DESIGN CHOICE, safe, log 19). -/
def State.withFetchWord (s : State) (nbits w : Nat) : State := s.loadFrom s.pc.toNat (tableBytes nbits w)

end Sys2Proof.Machine
end

