-- ==== Sys2Proof/Safety.lean ====
section
/-! DEFINITION. What counts as a good end, a faulted end and a sound state, and the terms claims are written in: what a step
keeps, what a fault leaves, the bytes an instruction is read from. -/

namespace Sys2Proof.Machine

/-- The run ended well: HLT executed (R122, R218). -/
def State.cleanEnd (s : State) : Bool := s.run == .halted && s.cause == .hlt

/-- The run ended in a fault, a state that is never final (R218). -/
def State.faultEnd (s : State) : Bool :=
  s.run == .halted && (s.cause == .illegalInstruction || s.cause == .memoryFault)

/-- `s` halted with a record, every other piece of state unchanged: what a fault leaves (R203, R204, R205). -/
def State.haltedWith (s : State) (c : Cause) (n : Nat) : State :=
  { s with run := .halted, cause := c, info := BitVec.ofNat 9 n }

/-- `s` with another halt record in place of its own. -/
def State.withRecord (s : State) (c : Cause) (n : Pc) : State := { s with cause := c, info := n }

/-- The bytes at `pc`, `pc + 1` and `pc + 2`, as far as they lie inside memory (R112, R113). -/
def State.codeBytes (s : State) : List Byte :=
  ([s.pc.toNat, s.pc.toNat + 1, s.pc.toNat + 2].filter fun a => decide (a < s.cfg.memSize)).map s.byteAt

/-- A Running machine of this spec whose fetch raises no fault: the opcode byte lies in memory (R111), and with
STRICT_READAHEAD so do the two bytes after it (R112). -/
structure State.CanFetch (s : State) : Prop where
  running : s.run = .running
  legal : s.cfg.wf = true
  opcodeInside : s.pc.toNat < s.cfg.memSize
  strictInside : s.cfg.strictReadAhead = true → s.pc.toNat + 2 < s.cfg.memSize

/-- Every register but those listed holds in `t` what it held in `s`. -/
def RegsKeptBut (ds : List Reg) (s t : State) : Prop := ∀ r, r ∉ ds → t.reg r = s.reg r

/-- Every byte of memory reads in `t` as it read in `s`. -/
def MemKept (s t : State) : Prop := ∀ a, t.byteAt a = s.byteAt a

/-- Every byte of memory but the one at `b` reads in `t` as it read in `s`. -/
def MemKeptBut (b : Nat) (s t : State) : Prop := ∀ a, a ≠ b → t.byteAt a = s.byteAt a

/-- The run state, the halt record and the parameters are the same in `t` as in `s`. -/
def ControlKept (s t : State) : Prop :=
  t.run = s.run ∧ t.cause = s.cause ∧ t.info = s.info ∧ t.cfg = s.cfg

/-- A sound state: what every state from reset on has, under any host that only steps and loads. -/
structure State.Inv (s : State) : Prop where
  /-- The parameters are those of a machine of this spec (R6, R89). -/
  legal : s.cfg.wf = true
  /-- The memory list has its canonical form. -/
  memCanonical : s.mem.wf = true
  /-- No byte is held at an address that does not exist (R50, R61). -/
  memInside : ∀ cell ∈ s.mem, cell.1 < s.cfg.memSize
  /-- `pc` is 0 to 258 (R20, R26). -/
  pcRange : s.pc.toNat ≤ 258
  /-- While Running there is no halt record (R30, R31). -/
  runningRecord : s.run = .running → s.cause = .none ∧ s.info = 0#9
  /-- A Halted machine has a cause (R30). -/
  haltedRecord : s.run = .halted → s.cause ≠ .none
  /-- After HLT, `info` is the address of the HLT byte, which lies in memory, and `pc` is one past it (R31, R117, R140). -/
  hltRecord : s.cause = .hlt → s.pc.toNat = s.info.toNat + 1 ∧ s.info.toNat < s.cfg.memSize
  /-- After IllegalInstruction, `info` is a byte (R31, R201). -/
  illegalRecord : s.cause = .illegalInstruction → s.info.toNat ≤ 255
  /-- After MemoryFault, `info` is an address outside memory, at most 258 (R31, R201). -/
  memoryRecord : s.cause = .memoryFault → s.cfg.memSize ≤ s.info.toNat ∧ s.info.toNat ≤ 258

end Sys2Proof.Machine
end

