-- ==== Sys2Proof/Certificates/Slice0/Obligations.lean ====
section
/-! DEFINITION. The statements about the machine. `N` in a docstring is `s.cfg.memSize`, `a` the value of `pc` at the start of
the step. Every statement quantifies over the parameters of R6, which ride in `State.cfg`. Where a rule cited here carries a
decision D<n> of 92_eei_decisions.md, the docstring names it: the choice is the spec's, stated by the rule. -/

open Sys2Proof Sys2Proof.Machine

namespace Sys2Proof.Claims

/-- The faults of the fetch, the same for every instruction (R111, R112, R206 items 1 and 2): the opcode byte outside
memory; under STRICT_READAHEAD, operand slot A, else B, outside memory. -/
def FetchFaults : Prop := ∀ s : State, s.run = .running → s.cfg.wf = true →
  (s.cfg.memSize ≤ s.pc.toNat → step s = .next (s.haltedWith .memoryFault s.pc.toNat)) ∧
  (s.pc.toNat < s.cfg.memSize → s.cfg.strictReadAhead = true → s.cfg.memSize ≤ s.pc.toNat + 1 →
    step s = .next (s.haltedWith .memoryFault (s.pc.toNat + 1))) ∧
  (s.pc.toNat + 1 < s.cfg.memSize → s.cfg.strictReadAhead = true → s.cfg.memSize ≤ s.pc.toNat + 2 →
    step s = .next (s.haltedWith .memoryFault (s.pc.toNat + 2)))

/-- An unrecognised opcode byte halts with IllegalInstruction and changes nothing else (R91, R206 item 3). -/
def OpcodeFault : Prop := ∀ s : State, s.CanFetch → (∀ m, s.cfg.opcode m ≠ s.byteAt s.pc.toNat) →
  step s = .next (s.haltedWith .illegalInstruction (s.byteAt s.pc.toNat).toNat)

/-- The faults of the operand bytes of the instruction `m` at `pc` (R113, R85, R206 items 4 to 7): A missing, B missing, A
no register, B no register, each where the ones before it do not hold. -/
def OperandFaults (m : Mnemonic) : Prop := ∀ s : State, s.CanFetch → s.byteAt s.pc.toNat = s.cfg.opcode m →
  (1 ≤ m.count → s.cfg.memSize ≤ s.pc.toNat + 1 → step s = .next (s.haltedWith .memoryFault (s.pc.toNat + 1))) ∧
  (m.count = 2 → s.pc.toNat + 1 < s.cfg.memSize → s.cfg.memSize ≤ s.pc.toNat + 2 →
    step s = .next (s.haltedWith .memoryFault (s.pc.toNat + 2))) ∧
  (1 ≤ m.count → s.pc.toNat + m.count < s.cfg.memSize → 8 ≤ (s.byteAt (s.pc.toNat + 1)).toNat →
    step s = .next (s.haltedWith .illegalInstruction (s.byteAt (s.pc.toNat + 1)).toNat)) ∧
  (m.kinds = [.reg, .reg] → s.pc.toNat + 2 < s.cfg.memSize → (s.byteAt (s.pc.toNat + 1)).toNat < 8 →
    8 ≤ (s.byteAt (s.pc.toNat + 2)).toNat →
    step s = .next (s.haltedWith .illegalInstruction (s.byteAt (s.pc.toNat + 2)).toNat))

/-- The last fault of the order: the stack access of an instruction whose bytes are all there and legal (R206 item 8). -/
def StackFaults : Prop := ∀ (s : State) (i : Instr), s.CanFetch → encode s.cfg i <+: s.codeBytes →
  (i.mnemonic = .push ∨ i.mnemonic = .call → s.cfg.memSize ≤ (s.sp - 1#8).toNat →
    step s = .next (s.haltedWith .memoryFault (s.sp - 1#8).toNat)) ∧
  (i.mnemonic = .pop ∨ i.mnemonic = .ret → s.cfg.memSize ≤ s.sp.toNat →
    step s = .next (s.haltedWith .memoryFault s.sp.toNat))

/-- A decimal digit as the console writes it. -/
def digit (n : Nat) : Char := Char.ofNat (48 + n)

/-- The last column of the table of R25: the new `pc` of each instruction that does not fault. -/
def newPc (s : State) : Instr → Nat
  | .hlt => s.pc.toNat + 1
  | .ldi _ _ => s.pc.toNat + 3
  | .prn _ => s.pc.toNat + 2
  | .mul _ _ => s.pc.toNat + 3
  | .add _ _ => s.pc.toNat + 3
  | .push _ => s.pc.toNat + 2
  | .pop _ => s.pc.toNat + 2
  | .call r => if r = 7 then (s.sp - 1#8).toNat else (s.reg r).toNat
  | .ret => (s.byteAt s.sp.toNat).toNat
  | .cmp _ _ => s.pc.toNat + 3
  | .jmp r => (s.reg r).toNat
  | .jeq r => if s.e = true then (s.reg r).toNat else s.pc.toNat + 2
  | .jne r => if s.e = true then s.pc.toNat + 2 else (s.reg r).toNat

end Sys2Proof.Claims

open Sys2Proof.Claims

/-! ## Encoding -/

/-- R87: the source's worked image decodes to LDI R0,8; PRN R0; HLT, in every machine of this spec. -/
def Obligations.SourceImageDecodes : Prop := ∀ c : Config, c.wf = true →
  decode c [0b10011001#8, 0b00000000#8, 0b00001000#8] = .ok (.ldi 0 8#8) ∧
  decode c [0b01000011#8, 0b00000000#8] = .ok (.prn 0) ∧
  decode c [0b00000001#8] = .ok .hlt ∧
  encode c (.ldi 0 8#8) ++ encode c (.prn 0) ++ encode c .hlt =
    [0b10011001#8, 0b00000000#8, 0b00001000#8, 0b01000011#8, 0b00000000#8, 0b00000001#8]

/-- R86 with the default bytes of R88: one word of every row decodes to the instruction it stands for. The ten bytes that
are not the source's are the spec's defaults from general knowledge (log 3). -/
def Obligations.DefaultWordsDecode : Prop :=
  decode Config.default [0xAA#8, 0x02#8, 0x03#8] = .ok (.mul 2 3) ∧
  decode Config.default [0xA8#8, 0x00#8, 0x07#8] = .ok (.add 0 7) ∧
  decode Config.default [0x4D#8, 0x01#8] = .ok (.push 1) ∧
  decode Config.default [0x4C#8, 0x02#8] = .ok (.pop 2) ∧
  decode Config.default [0x48#8, 0x01#8] = .ok (.call 1) ∧
  decode Config.default [0x09#8] = .ok .ret ∧
  decode Config.default [0xA0#8, 0x03#8, 0x04#8] = .ok (.cmp 3 4) ∧
  decode Config.default [0x50#8, 0x05#8] = .ok (.jmp 5) ∧
  decode Config.default [0x51#8, 0x06#8] = .ok (.jeq 6) ∧
  decode Config.default [0x52#8, 0x07#8] = .ok (.jne 7)

/-- R89: what every legal assignment of the opcode bytes fixes: (a) the count bits, (b) distinct bytes, (c) none of the ten
is a byte of the source's three, (d) `0xFF` is always unmapped (the spec derives d from R81). -/
def Obligations.OpcodeBytesConstrained : Prop := ∀ c : Config, c.wf = true →
  (∀ m, (c.opcode m >>> 6).toNat = m.count) ∧
  (∀ m n, c.opcode m = c.opcode n → m = n) ∧
  (∀ m, m ≠ .hlt → m ≠ .ldi → m ≠ .prn → c.opcode m ≠ 0x01#8 ∧ c.opcode m ≠ 0x99#8 ∧ c.opcode m ≠ 0x43#8) ∧
  (∀ m, c.opcode m ≠ 0xFF#8)

/-- Decode and encode agree, in both directions: the decoder answers an instruction exactly where the bytes begin with that
instruction's encoding, every operand at every value. -/
def Obligations.DecodeExactlyEncodings : Prop := ∀ (c : Config) (bs : List Byte) (i : Instr), c.wf = true →
  (decode c bs = .ok i ↔ encode c i <+: bs)

/-- The encodings are exactly the well-formed words: an opcode byte of the table with as many operand bytes as its row has,
each legal for its kind (R82 to R86, R91, R92). -/
def Obligations.EncodingsAreWellFormedWords : Prop := ∀ (c : Config) (bs : List Byte), c.wf = true →
  ((∃ i, encode c i = bs) ↔ wellFormedWords c bs = true)

/-! ## The step -/

/-- A step runs the decoded instruction: where the bytes in memory from `pc` begin with the encoding of `i`, the step is
`exec` of `i` at that state, with nothing around it; `exec` itself advances or transfers `pc` (R115 to R117, R120). The
read-ahead bytes beyond the instruction play no part, inside memory or outside (R112). -/
def Obligations.StepRunsDecodedInstruction : Prop := ∀ (s : State) (i : Instr),
  s.CanFetch → encode s.cfg i <+: s.codeBytes → step s = exec i s

/-- R110 (the Halted half is decision D12): a step in Running executes one instruction or raises one fault; a step in Halted
changes no state at all and its status is "halted". -/
def Obligations.StepExecutesOrFaultsOnce : Prop := ∀ s : State,
  (s.run = .halted → step s = .next s ∧ s.status = .halted) ∧
  (s.run = .running → s.cfg.wf = true →
    (∃ i, encode s.cfg i <+: s.codeBytes ∧ step s = exec i s) ∨
    (∃ c n, (c = .illegalInstruction ∨ c = .memoryFault) ∧ step s = .next (s.haltedWith c n)))

/-- R29: after reset the machine is Running; Halted is terminal, under steps and under the host's loads. -/
def Obligations.HaltedIsTerminal : Prop :=
  (∀ c : Config, (State.construct c).run = .running) ∧
  (∀ s : State, s.run = .halted → step s = .next s) ∧
  (∀ s t : State, step s = .next t → t.run = .running → s.run = .running) ∧
  (∀ (s : State) (k : Nat) (v : Byte), (s.load k v).run = s.run)

/-- Every step of a machine of this spec answers a next state, and no step answers the host's `fault` outcome. A step does
raise MemoryFault and IllegalInstruction (R203 to R205); that it then answers the Halted state they leave as a next state is
the model's choice (log 8, DESIGN CHOICE). The one refusal, of a Running machine whose parameters are outside the spec (U10,
R89), is the model's choice too (log 2, DESIGN CHOICE). -/
def Obligations.StepAlwaysAnswers : Prop := ∀ s : State,
  (s.cfg.wf = true → ∃ t, step s = .next t) ∧
  (∀ f, step s ≠ .fault f) ∧
  (∀ r, step s = .refused r → r = .configOutsideSpec ∧ s.run = .running ∧ s.cfg.wf = false)

/-- R206 (decision D7): the order of a step's faults, all eight items; each leaves only the halt record changed. -/
def Obligations.FaultOrder : Prop :=
  FetchFaults ∧ OpcodeFault ∧ (∀ m, OperandFaults m) ∧ StackFaults

/-- R205 (decision D6): a step that faults changes `run`, `cause` and `info` and nothing else, and every step that halts
otherwise is the HLT instruction's. -/
def Obligations.FaultsArePrecise : Prop := ∀ s t : State, s.run = .running → step s = .next t → t.run = .halted →
  (t.cause = .hlt ∧ s.byteAt s.pc.toNat = 0x01#8) ∨
  ((t.cause = .illegalInstruction ∨ t.cause = .memoryFault) ∧ t = s.haltedWith t.cause t.info.toNat)

/-- R118 (decision D20): the status of a step is "halted" exactly when the state after it is Halted; so for the HLT step, for
a step that faults, and for every step in Halted. -/
def Obligations.StatusOfStep : Prop :=
  (∀ s t : State, step s = .next t → ((t.status = .halted ↔ t.run = .halted) ∧ (t.status = .continues ↔ t.run = .running))) ∧
  (∀ s t : State, exec .hlt s = .next t → t.status = .halted) ∧
  (∀ (s : State) (f : Fault), (s.raise f).status = .halted) ∧
  (∀ s t : State, s.run = .halted → step s = .next t → t.status = .halted)

/-- R203 (its extension to every other piece of state is decision D6): what raising MemoryFault leaves. -/
def Obligations.MemoryFaultEffect : Prop := ∀ (s : State) (k : Nat), k ≤ 258 →
  (s.raise (.memoryFault k)).run = .halted ∧ (s.raise (.memoryFault k)).cause = .memoryFault ∧
  (s.raise (.memoryFault k)).info.toNat = k ∧ (∀ r, (s.raise (.memoryFault k)).reg r = s.reg r) ∧
  (s.raise (.memoryFault k)).pc = s.pc ∧ (s.raise (.memoryFault k)).e = s.e ∧ MemKept s (s.raise (.memoryFault k)) ∧
  (s.raise (.memoryFault k)).out = s.out ∧ (s.raise (.memoryFault k)).cfg = s.cfg ∧
  (s.raise (.memoryFault k)).status = .halted

/-- R204 (register operands by decision D8): an unrecognised opcode byte, or a register operand of 8 to 255, halts with
IllegalInstruction, `info` the offending byte, and every other piece of state as it was. -/
def Obligations.IllegalInstructionEffect : Prop :=
  OpcodeFault ∧
  (∀ m : Mnemonic, OperandFaults m) ∧
  (∀ (s : State) (v : Byte), (s.raise (.illegalInstruction v)).run = .halted ∧
    (s.raise (.illegalInstruction v)).cause = .illegalInstruction ∧
    (s.raise (.illegalInstruction v)).info.toNat = v.toNat ∧ (∀ r, (s.raise (.illegalInstruction v)).reg r = s.reg r) ∧
    (s.raise (.illegalInstruction v)).pc = s.pc ∧ (s.raise (.illegalInstruction v)).e = s.e ∧
    MemKept s (s.raise (.illegalInstruction v)) ∧ (s.raise (.illegalInstruction v)).out = s.out ∧
    (s.raise (.illegalInstruction v)).cfg = s.cfg ∧ (s.raise (.illegalInstruction v)).status = .halted)

/-- R85 (decision D8): a register operand of 8 to 255 faults, A before B, whatever the rest of the state; the immediate of
LDI is never checked. -/
def Obligations.RegisterOperandsChecked : Prop :=
  (∀ (s : State) (m : Mnemonic), s.CanFetch → s.byteAt s.pc.toNat = s.cfg.opcode m → 1 ≤ m.count →
    s.pc.toNat + m.count < s.cfg.memSize → 8 ≤ (s.byteAt (s.pc.toNat + 1)).toNat →
    step s = .next (s.haltedWith .illegalInstruction (s.byteAt (s.pc.toNat + 1)).toNat)) ∧
  (∀ (s : State) (m : Mnemonic), s.CanFetch → s.byteAt s.pc.toNat = s.cfg.opcode m → m.kinds = [.reg, .reg] →
    s.pc.toNat + 2 < s.cfg.memSize → (s.byteAt (s.pc.toNat + 1)).toNat < 8 → 8 ≤ (s.byteAt (s.pc.toNat + 2)).toNat →
    step s = .next (s.haltedWith .illegalInstruction (s.byteAt (s.pc.toNat + 2)).toNat)) ∧
  (∀ (s : State) (h : (s.byteAt (s.pc.toNat + 1)).toNat < 8), s.CanFetch → s.byteAt s.pc.toNat = 0x99#8 →
    s.pc.toNat + 2 < s.cfg.memSize →
    step s = exec (.ldi ⟨(s.byteAt (s.pc.toNat + 1)).toNat, h⟩ (s.byteAt (s.pc.toNat + 2))) s)

/-! ## State -/

/-- R230: the state after reset, for every assignment of the parameters (the reset values of the registers and of E are
those parameters, D13; `pc` is 0 by the spec's own inference from the worked example). -/
def Obligations.ResetState : Prop := ∀ c : Config,
  (∀ k, (State.construct c).byteAt k = 0x00#8) ∧ (State.construct c).pc = 0#9 ∧ (State.construct c).run = .running ∧
  (State.construct c).cause = .none ∧ (State.construct c).info = 0#9 ∧ (State.construct c).out = [] ∧
  (∀ r : Fin 7, (State.construct c).reg (r.castSucc) = c.resetR[r]) ∧ (State.construct c).sp = c.resetSp ∧
  (State.construct c).e = c.resetE ∧ (State.construct c).cfg = c

/-- R233: a program image that fits is in memory byte for byte from address 0, and all else is as reset leaves it. -/
def Obligations.BootInstallsImage : Prop := ∀ (c : Config) (image : List Byte), c.wf = true →
  image.length ≤ c.memSize →
  (∀ k, (State.boot c image).byteAt k = image.getD k 0x00#8) ∧
  State.boot c image = { State.construct c with mem := (State.boot c image).mem } ∧ (State.boot c image).Inv

/-- R237 (the refused call is decision D17): the host's load writes one byte in range and nothing else; out of range it
does nothing; a halted machine stays halted. The byte is what the next read of that address gives (R64). -/
def Obligations.HostLoad : Prop := ∀ (s : State) (k : Nat) (v : Byte), s.mem.wf = true →
  (k < s.cfg.memSize → (s.load k v).memRead k = .ok v ∧ MemKeptBut k s (s.load k v) ∧
    s.load k v = { s with mem := (s.load k v).mem }) ∧
  (s.cfg.memSize ≤ k → s.load k v = s)

/-- R52: MemRead answers the byte in range and MemoryFault of that very address out of range. -/
def Obligations.MemReadRule : Prop := ∀ (s : State) (k : Nat),
  (k < s.cfg.memSize → s.memRead k = .ok (s.byteAt k)) ∧
  (s.cfg.memSize ≤ k → s.memRead k = .error (.memoryFault k))

/-- R53: MemWrite changes one byte in range, and out of range raises MemoryFault and changes none. -/
def Obligations.MemWriteRule : Prop := ∀ (s : State) (k : Nat) (v : Byte), s.mem.wf = true →
  (k < s.cfg.memSize → ∃ t, s.memWrite k v = .ok t ∧ t.byteAt k = v ∧ MemKeptBut k s t ∧ t = { s with mem := t.mem }) ∧
  (s.cfg.memSize ≤ k → s.memWrite k v = .error (.memoryFault k))

/-- An invariant of the machine: every step keeps it. Memory canonical and inside 0 to N-1, `pc` and `info` in range, the
halt record in agreement with the run state and with what R31 says it records. -/
def Obligations.StepKeepsInv : Prop := ∀ s t : State, s.Inv → step s = .next t → t.Inv

/-- The host's load keeps the invariant. -/
def Obligations.LoadKeepsInv : Prop := ∀ (s : State) (k : Nat) (v : Byte), s.Inv → (s.load k v).Inv

/-- The invariant holds after reset, for every legal assignment of the parameters and for the defaults. -/
def Obligations.ResetIsSound : Prop := (∀ c : Config, c.wf = true → (State.construct c).Inv) ∧ State.reset.Inv

/-- From every sound state, any number of steps with no host load between them (log 16) answers a sound state: never the
host's `fault` or `refused` outcome. A run of the machine does end with a fault in the sense of R122, Halted with cause
IllegalInstruction or MemoryFault; that such an end is a next state is the model's choice (log 8, DESIGN CHOICE). -/
def Obligations.RunsNeverStop : Prop := ∀ (k : Nat) (s : State), s.Inv → ∃ t, core.run k s = .next t ∧ t.Inv

/-- The parameters are fixed for the life of a machine (R37): no step and no load changes them. -/
def Obligations.ParametersFixed : Prop :=
  (∀ s t : State, step s = .next t → t.cfg = s.cfg) ∧ (∀ (s : State) (k : Nat) (v : Byte), (s.load k v).cfg = s.cfg)

/-- R25: the new `pc` of every instruction, and that a step that faults leaves `pc` unchanged. (That HLT advances is the
spec's own inference from R117.) -/
def Obligations.NewPcTable : Prop :=
  (∀ (i : Instr) (s t : State), s.run = .running → s.pc.toNat < 256 → exec i s = .next t →
    t.faultEnd = false → t.pc.toNat = newPc s i) ∧
  (∀ s t : State, s.run = .running → step s = .next t → t.faultEnd = true → t.pc = s.pc)

/-- R27: CMP alone writes E, as equality of its registers; JEQ and JNE alone read it; no fault and no load changes it; its
reset value is the parameter (D13). -/
def Obligations.EqualityFlagRule : Prop :=
  (∀ (a b : Reg) (s t : State), exec (.cmp a b) s = .next t → (t.e = true ↔ s.reg a = s.reg b)) ∧
  (∀ s t : State, step s = .next t → s.byteAt s.pc.toNat ≠ s.cfg.opcode .cmp → t.e = s.e) ∧
  (∀ s t : State, s.run = .running → step s = .next t → t.faultEnd = true → t.e = s.e) ∧
  (∀ (i : Instr) (s t : State) (b : Bool), i.mnemonic ≠ .jeq → i.mnemonic ≠ .jne → exec i s = .next t →
    ∃ b', exec i (s.setE b) = .next (t.setE b')) ∧
  (∀ (s : State) (k : Nat) (v : Byte), (s.load k v).e = s.e) ∧
  (∀ c : Config, (State.construct c).e = c.resetE)

/-- R34: `out` is empty at reset, only grows, by PRN alone and by one byte, and the core never reads it: with any other
channel contents the step does the same and appends the same. -/
def Obligations.OutputOnlyGrows : Prop :=
  (∀ c : Config, (State.construct c).out = []) ∧
  (∀ s t : State, step s = .next t → ∃ new : List Byte, t.out = s.out ++ new ∧
    (new = [] ∨ (s.byteAt s.pc.toNat = 0x43#8 ∧ ∃ r, new = [s.reg r])) ∧
    (∀ o : List Byte, step { s with out := o } = .next { t with out := o ++ new }))

/-- No instruction reads the halt record (R30, R31): with any other record in a Running machine the step does the same,
and where it does not halt it leaves the record alone. -/
def Obligations.HaltRecordUnread : Prop := ∀ (s t : State) (c : Cause) (n : Pc), s.run = .running →
  step s = .next t →
  (t.run = .running → t.cause = s.cause ∧ t.info = s.info ∧ step (s.withRecord c n) = .next (t.withRecord c n)) ∧
  (t.run = .halted → step (s.withRecord c n) = .next t)

/-- What memory is as data (R51, R57): only PUSH and CALL write it, one byte, at the decremented stack pointer; only POP and
RET read it, and only the byte at the stack pointer. With any other memory in the state the instruction does the same: an
instruction that does not store leaves that memory as it is, and the byte PUSH or CALL stores is the same byte (in canonical
memories, where what is stored is what reads back). -/
def Obligations.MemoryAsData : Prop :=
  (∀ (i : Instr) (s t : State) (k : Nat), exec i s = .next t → t.byteAt k ≠ s.byteAt k →
    (i.mnemonic = .push ∨ i.mnemonic = .call) ∧ k = (s.sp - 1#8).toNat ∧ k < s.cfg.memSize) ∧
  (∀ (i : Instr) (s t : State) (m : Memory), exec i s = .next t →
    (i.mnemonic = .pop ∨ i.mnemonic = .ret → m.get s.sp.toNat = s.byteAt s.sp.toNat) →
    ∃ m', exec i { s with mem := m } = .next { t with mem := m' } ∧
      (i.mnemonic ≠ .push → i.mnemonic ≠ .call → m' = m) ∧
      (i.mnemonic = .push ∨ i.mnemonic = .call → s.mem.wf = true → m.wf = true →
        (s.sp - 1#8).toNat < s.cfg.memSize → m'.get (s.sp - 1#8).toNat = t.byteAt (s.sp - 1#8).toNat))

/-! ## The instructions: encoding, faults, and the effect with its frame -/

/-- R140 (`cause` and `info` are decision D15): HLT. -/
def Obligations.HltRule : Prop :=
  (∀ c : Config, encode c .hlt = [0x01#8]) ∧ FetchFaults ∧
  (∀ s : State, s.pc.toNat < 256 → ∃ t, exec .hlt s = .next t ∧ t.run = .halted ∧ t.cause = .hlt ∧ t.info = s.pc ∧
    t.pc.toNat = s.pc.toNat + 1 ∧ RegsKeptBut [] s t ∧ t.e = s.e ∧ MemKept s t ∧ t.out = s.out ∧ t.cfg = s.cfg ∧
    t.status = .halted ∧ step t = .next t) ∧
  (∀ s t : State, s.run = .running → step s = .next t → t.cleanEnd = true → s.byteAt s.pc.toNat = 0x01#8)

/-- R141: LDI. -/
def Obligations.LdiRule : Prop :=
  (∀ (c : Config) (a : Reg) (b : Byte), encode c (.ldi a b) = [0x99#8, BitVec.ofNat 8 a, b]) ∧ OperandFaults .ldi ∧
  (∀ (s : State) (a : Reg) (b : Byte), s.pc.toNat < 256 → ∃ t, exec (.ldi a b) s = .next t ∧ t.reg a = b ∧
    t.pc.toNat = s.pc.toNat + 3 ∧ RegsKeptBut [a] s t ∧ t.e = s.e ∧ MemKept s t ∧ t.out = s.out ∧ ControlKept s t)

/-- R142 (what the channel carries is decision D16): PRN, and the console's text: each value an unsigned decimal integer
without leading zeros or sign, followed by a line end. R142 does not say which character a line end is, and nothing here
rests on it; the model's choice (log 21) is stated in ConsoleLineEnd. -/
def Obligations.PrnRule : Prop :=
  (∀ (c : Config) (a : Reg), encode c (.prn a) = [0x43#8, BitVec.ofNat 8 a]) ∧ OperandFaults .prn ∧
  (∀ (s : State) (a : Reg), s.pc.toNat < 256 → ∃ t, exec (.prn a) s = .next t ∧ t.out = s.out ++ [s.reg a] ∧
    t.pc.toNat = s.pc.toNat + 2 ∧ RegsKeptBut [] s t ∧ t.e = s.e ∧ MemKept s t ∧ ControlKept s t) ∧
  (consoleText [] = [] ∧ ∀ (v : Byte) (vs : List Byte), consoleText (v :: vs) = consoleLine v ++ lineEnd ++ consoleText vs) ∧
  (∀ v : Byte, consoleLine v =
    if v.toNat < 10 then [digit v.toNat]
    else if v.toNat < 100 then [digit (v.toNat / 10), digit (v.toNat % 10)]
    else [digit (v.toNat / 100), digit (v.toNat / 10 % 10), digit (v.toNat % 10)])

/-- The line end of the console's text is one newline character: the model's choice (log 21, DESIGN CHOICE), where R142 says
"a line end". -/
def Obligations.ConsoleLineEnd : Prop := ∀ v : Byte, consoleText [v] = consoleLine v ++ ['\n']

/-- R150: MUL. Where A = B both reads come before the write. -/
def Obligations.MulRule : Prop :=
  (∀ (c : Config) (a b : Reg), encode c (.mul a b) = [c.opcMul, BitVec.ofNat 8 a, BitVec.ofNat 8 b]) ∧ OperandFaults .mul ∧
  (∀ (s : State) (a b : Reg), s.pc.toNat < 256 → ∃ t, exec (.mul a b) s = .next t ∧
    (t.reg a).toNat = (s.reg a).toNat * (s.reg b).toNat % 256 ∧
    t.pc.toNat = s.pc.toNat + 3 ∧ RegsKeptBut [a] s t ∧ t.e = s.e ∧ MemKept s t ∧ t.out = s.out ∧ ControlKept s t)

/-- R151: ADD. -/
def Obligations.AddRule : Prop :=
  (∀ (c : Config) (a b : Reg), encode c (.add a b) = [c.opcAdd, BitVec.ofNat 8 a, BitVec.ofNat 8 b]) ∧ OperandFaults .add ∧
  (∀ (s : State) (a b : Reg), s.pc.toNat < 256 → ∃ t, exec (.add a b) s = .next t ∧
    (t.reg a).toNat = ((s.reg a).toNat + (s.reg b).toNat) % 256 ∧
    t.pc.toNat = s.pc.toNat + 3 ∧ RegsKeptBut [a] s t ∧ t.e = s.e ∧ MemKept s t ∧ t.out = s.out ∧ ControlKept s t)

/-- R160 (fault before the write: D6; wrap: D9; PUSH R7: D11): PUSH. The address stored to is the decremented stack
pointer; PUSH R7 stores that same value. -/
def Obligations.PushRule : Prop :=
  (∀ (c : Config) (a : Reg), encode c (.push a) = [c.opcPush, BitVec.ofNat 8 a]) ∧ OperandFaults .push ∧
  (∀ (s : State) (a : Reg), s.mem.wf = true → s.pc.toNat < 256 → (s.sp - 1#8).toNat < s.cfg.memSize →
    ∃ t, exec (.push a) s = .next t ∧ t.sp = s.sp - 1#8 ∧ RegsKeptBut [7] s t ∧
      t.byteAt (s.sp - 1#8).toNat = (if a = 7 then s.sp - 1#8 else s.reg a) ∧ MemKeptBut (s.sp - 1#8).toNat s t ∧
      t.pc.toNat = s.pc.toNat + 2 ∧ t.e = s.e ∧ t.out = s.out ∧ ControlKept s t) ∧
  (∀ (s : State) (a : Reg), s.cfg.memSize ≤ (s.sp - 1#8).toNat →
    exec (.push a) s = .next (s.haltedWith .memoryFault (s.sp - 1#8).toNat))

/-- R161 (wrap: D9; POP R7: D11): POP. POP R7 increments the loaded value. -/
def Obligations.PopRule : Prop :=
  (∀ (c : Config) (a : Reg), encode c (.pop a) = [c.opcPop, BitVec.ofNat 8 a]) ∧ OperandFaults .pop ∧
  (∀ (s : State) (a : Reg), s.pc.toNat < 256 → s.sp.toNat < s.cfg.memSize →
    ∃ t, exec (.pop a) s = .next t ∧ (a ≠ 7 → t.reg a = s.byteAt s.sp.toNat ∧ t.sp = s.sp + 1#8) ∧
      (a = 7 → t.sp = s.byteAt s.sp.toNat + 1#8) ∧ RegsKeptBut [a, 7] s t ∧ MemKept s t ∧
      t.pc.toNat = s.pc.toNat + 2 ∧ t.e = s.e ∧ t.out = s.out ∧ ControlKept s t) ∧
  (∀ (s : State) (a : Reg), s.cfg.memSize ≤ s.sp.toNat →
    exec (.pop a) s = .next (s.haltedWith .memoryFault s.sp.toNat))

/-- R170 (wrap: D9; stored byte: D10; CALL R7: D11): CALL. The address stored to is the decremented stack pointer; the byte
is the low eight bits of `a + 2`; CALL R7 jumps to the decremented stack pointer. -/
def Obligations.CallRule : Prop :=
  (∀ (c : Config) (a : Reg), encode c (.call a) = [c.opcCall, BitVec.ofNat 8 a]) ∧ OperandFaults .call ∧
  (∀ (s : State) (a : Reg), s.mem.wf = true → (s.sp - 1#8).toNat < s.cfg.memSize →
    ∃ t, exec (.call a) s = .next t ∧ t.sp = s.sp - 1#8 ∧ RegsKeptBut [7] s t ∧
      (t.byteAt (s.sp - 1#8).toNat).toNat = (s.pc.toNat + 2) % 256 ∧ MemKeptBut (s.sp - 1#8).toNat s t ∧
      t.pc.toNat = (if a = 7 then s.sp - 1#8 else s.reg a).toNat ∧ t.e = s.e ∧ t.out = s.out ∧ ControlKept s t) ∧
  (∀ (s : State) (a : Reg), s.cfg.memSize ≤ (s.sp - 1#8).toNat →
    exec (.call a) s = .next (s.haltedWith .memoryFault (s.sp - 1#8).toNat))

/-- R171 (wrap: D9): RET. -/
def Obligations.RetRule : Prop :=
  (∀ c : Config, encode c .ret = [c.opcRet]) ∧ FetchFaults ∧
  (∀ s : State, s.sp.toNat < s.cfg.memSize →
    ∃ t, exec .ret s = .next t ∧ t.pc.toNat = (s.byteAt s.sp.toNat).toNat ∧ t.sp = s.sp + 1#8 ∧ RegsKeptBut [7] s t ∧
      MemKept s t ∧ t.e = s.e ∧ t.out = s.out ∧ ControlKept s t) ∧
  (∀ s : State, s.cfg.memSize ≤ s.sp.toNat → exec .ret s = .next (s.haltedWith .memoryFault s.sp.toNat))

/-- R180: CMP. E is always written, to 1 or to 0. -/
def Obligations.CmpRule : Prop :=
  (∀ (c : Config) (a b : Reg), encode c (.cmp a b) = [c.opcCmp, BitVec.ofNat 8 a, BitVec.ofNat 8 b]) ∧ OperandFaults .cmp ∧
  (∀ (s : State) (a b : Reg), s.pc.toNat < 256 → ∃ t, exec (.cmp a b) s = .next t ∧
    (s.reg a = s.reg b → t.e = true) ∧ (s.reg a ≠ s.reg b → t.e = false) ∧
    t.pc.toNat = s.pc.toNat + 3 ∧ RegsKeptBut [] s t ∧ MemKept s t ∧ t.out = s.out ∧ ControlKept s t)

/-- R181: JMP; to its own address it changes no state. -/
def Obligations.JmpRule : Prop :=
  (∀ (c : Config) (a : Reg), encode c (.jmp a) = [c.opcJmp, BitVec.ofNat 8 a]) ∧ OperandFaults .jmp ∧
  (∀ (s : State) (a : Reg), ∃ t, exec (.jmp a) s = .next t ∧ t.pc.toNat = (s.reg a).toNat ∧
    RegsKeptBut [] s t ∧ t.e = s.e ∧ MemKept s t ∧ t.out = s.out ∧ ControlKept s t ∧
    ((s.reg a).toNat = s.pc.toNat → t = s))

/-- R182: JEQ. Taken where E is 1, whatever the registers; the register operand is checked in both cases. -/
def Obligations.JeqRule : Prop :=
  (∀ (c : Config) (a : Reg), encode c (.jeq a) = [c.opcJeq, BitVec.ofNat 8 a]) ∧ OperandFaults .jeq ∧
  (∀ (s : State) (a : Reg), s.pc.toNat < 256 → ∃ t, exec (.jeq a) s = .next t ∧
    (s.e = true → t.pc.toNat = (s.reg a).toNat) ∧ (s.e = false → t.pc.toNat = s.pc.toNat + 2) ∧
    RegsKeptBut [] s t ∧ t.e = s.e ∧ MemKept s t ∧ t.out = s.out ∧ ControlKept s t)

/-- R183: JNE. Taken where E is 0. -/
def Obligations.JneRule : Prop :=
  (∀ (c : Config) (a : Reg), encode c (.jne a) = [c.opcJne, BitVec.ofNat 8 a]) ∧ OperandFaults .jne ∧
  (∀ (s : State) (a : Reg), s.pc.toNat < 256 → ∃ t, exec (.jne a) s = .next t ∧
    (s.e = false → t.pc.toNat = (s.reg a).toNat) ∧ (s.e = true → t.pc.toNat = s.pc.toNat + 2) ∧
    RegsKeptBut [] s t ∧ t.e = s.e ∧ MemKept s t ∧ t.out = s.out ∧ ControlKept s t)

/-! ## Properties over several instructions -/

/-- The arithmetic laws of R152. The source's property of LDI, LDI, ADD is the clause for distinct registers. Two clauses
are the spec's own inferences, so marked in R152: the result for A = B, where the source's property fails as written (C7),
and the signed reading (G3), that sum and product, read as signed bytes, are the signed sum and product reduced to one. -/
def Obligations.ArithmeticWraps : Prop :=
  (∀ (s : State) (a b : Reg) (v w : Byte), ∃ t u r, exec (.ldi a v) s = .next t ∧ exec (.ldi b w) t = .next u ∧
    exec (.add a b) u = .next r ∧
    (a ≠ b → (r.reg a).toNat = (v.toNat + w.toNat) % 256) ∧ (a = b → (r.reg a).toNat = 2 * w.toNat % 256)) ∧
  (∀ (s : State) (a b : Reg), ∃ t u, exec (.add a b) s = .next t ∧ exec (.mul a b) s = .next u ∧
    (t.reg a).toInt = ((s.reg a).toInt + (s.reg b).toInt).bmod 256 ∧
    (u.reg a).toInt = ((s.reg a).toInt * (s.reg b).toInt).bmod 256)

/-- R163 (its R7 cases are the spec's own inference from R160 and R161): PUSH A then POP B, where the push does not fault:
for A and B other than 7 the value moves and SP is restored; PUSH R7 moves the decremented SP; POP R7 loads SP. The pushed
byte stays in memory. -/
def Obligations.PushThenPop : Prop := ∀ (s : State) (a b : Reg), s.mem.wf = true →
  (s.sp - 1#8).toNat < s.cfg.memSize → ∃ t u, exec (.push a) s = .next t ∧ exec (.pop b) t = .next u ∧
    (a ≠ 7 → b ≠ 7 → u.reg b = s.reg a ∧ u.sp = s.sp) ∧
    (a = 7 → b ≠ 7 → u.reg b = s.sp - 1#8 ∧ u.sp = s.sp) ∧
    (a ≠ 7 → b = 7 → u.sp = s.reg a + 1#8) ∧
    u.byteAt (s.sp - 1#8).toNat = (if a = 7 then s.sp - 1#8 else s.reg a)

/-- R172 (its conditions are the spec's own inference from R170 and R171): a CALL at `a <= 253`, then any execution that
brings SP back to its value just after the CALL and has not overwritten the byte there, then RET: control is at `a + 2` and
SP is as before the CALL. -/
def Obligations.CallThenRet : Prop := ∀ (s : State) (a : Reg), s.mem.wf = true → s.pc.toNat ≤ 253 →
  (s.sp - 1#8).toNat < s.cfg.memSize → ∃ t, exec (.call a) s = .next t ∧
    (∀ u : State, u.cfg = t.cfg → u.sp = t.sp → u.byteAt t.sp.toNat = t.byteAt t.sp.toNat →
      ∃ v, exec .ret u = .next v ∧ v.pc.toNat = s.pc.toNat + 2 ∧ v.sp = s.sp)

/-- R184: CMP A,B sets E iff the registers are equal; then of JEQ C and JNE C exactly one transfers control. -/
def Obligations.CompareThenBranch : Prop := ∀ (s : State) (a b c : Reg), s.pc.toNat + 3 < 256 →
  ∃ t u v, exec (.cmp a b) s = .next t ∧ exec (.jeq c) t = .next u ∧ exec (.jne c) t = .next v ∧
    (t.e = true ↔ s.reg a = s.reg b) ∧
    (s.reg a = s.reg b → u.pc.toNat = (s.reg c).toNat ∧ v.pc.toNat = s.pc.toNat + 5) ∧
    (s.reg a ≠ s.reg b → u.pc.toNat = s.pc.toNat + 5 ∧ v.pc.toNat = (s.reg c).toNat)

/-- Fetch is coherent with stores (R64): a PUSH completes as fetched even over its own bytes, and the pushed byte is what the
next read of that address gives, the opcode fetch of the next step among them. -/
def Obligations.PushedByteIsFetched : Prop := ∀ (s : State) (a : Reg), s.CanFetch → s.mem.wf = true →
  encode s.cfg (.push a) <+: s.codeBytes → (s.sp - 1#8).toNat < s.cfg.memSize →
  ∃ t, step s = .next t ∧ t.pc.toNat = s.pc.toNat + 2 ∧
    t.memRead (s.sp - 1#8).toNat = .ok (if a = 7 then s.sp - 1#8 else s.reg a) ∧
    ((s.sp - 1#8).toNat = s.pc.toNat + 2 →
      t.codeBytes.head? = some (if a = 7 then s.sp - 1#8 else s.reg a))
end

