-- ==== Sys2Proof/Laws/Decode.lean ====
section
/-! SUPPORT. The laws of the opcode table, of register operands and of legal parameters. -/

namespace Sys2Proof

theorem Mnemonic.mem_all (m : Mnemonic) : m ∈ Mnemonic.all := by cases m <;> decide

theorem Config.wf_iff {c : Config} :
    c.wf = true ↔ c.memSizeLegal = true ∧ c.countBitsLegal = true ∧ c.opcodesDistinct = true := by
  simp [Config.wf, and_assoc]

theorem Config.memSize_bounds {c : Config} (h : c.wf = true) : 1 ≤ c.memSize ∧ c.memSize ≤ 256 := by
  simpa [Config.memSizeLegal] using (Config.wf_iff.1 h).1

/-- Bits 7:6 of an opcode byte are its operand count (R81, R89 a). -/
theorem Config.opcode_count {c : Config} (h : c.wf = true) (m : Mnemonic) :
    (c.opcode m >>> 6).toNat = m.count := by
  have := (Config.wf_iff.1 h).2.1
  simp only [Config.countBitsLegal, List.all_eq_true, beq_iff_eq] at this
  exact this m m.mem_all

/-- Distinct mnemonics have distinct opcode bytes (R89 b). -/
theorem Config.opcode_inj {c : Config} (h : c.wf = true) {m n : Mnemonic} (e : c.opcode m = c.opcode n) : m = n := by
  have hd : (Mnemonic.all.map c.opcode).Nodup := by simpa [Config.opcodesDistinct] using (Config.wf_iff.1 h).2.2
  exact List.inj_on_of_nodup_map hd m.mem_all n.mem_all e

/-- What the opcode match answers is a row with that byte. -/
theorem Config.opcode_of_mnemonicOf {c : Config} {ir : Byte} {m : Mnemonic} (h : c.mnemonicOf ir = some m) :
    c.opcode m = ir := by
  simpa using List.find?_some h

/-- The opcode match finds the row of an opcode byte. -/
theorem Config.mnemonicOf_opcode {c : Config} (h : c.wf = true) (m : Mnemonic) : c.mnemonicOf (c.opcode m) = some m := by
  cases e : c.mnemonicOf (c.opcode m) with
  | none =>
    have := List.find?_eq_none.1 e m m.mem_all
    simp at this
  | some n => rw [Config.opcode_inj h (Config.opcode_of_mnemonicOf e)]

/-- The opcode match finds nothing exactly where no row has the byte (R91). -/
theorem Config.mnemonicOf_eq_none {c : Config} {ir : Byte} : c.mnemonicOf ir = none ↔ ∀ m, c.opcode m ≠ ir := by
  simp only [Config.mnemonicOf, List.find?_eq_none, beq_iff_eq]
  exact ⟨fun h m => h m m.mem_all, fun h m _ => h m⟩

@[simp] theorem byteOfReg_toNat (r : Reg) : (byteOfReg r).toNat = r.val := by
  simp only [byteOfReg, BitVec.toNat_ofNat]
  omega

@[simp] theorem regOfByte_byteOfReg (r : Reg) : regOfByte (byteOfReg r) = .ok r := by
  simp [regOfByte]

/-- A register operand that is read is the byte of the register it names. -/
theorem byteOfReg_of_regOfByte {b : Byte} {r : Reg} (h : regOfByte b = .ok r) : byteOfReg r = b := by
  unfold regOfByte at h
  split at h
  · cases h
    exact BitVec.eq_of_toNat_eq (by simp)
  · cases h

/-- A register operand of 8 to 255 is illegal (R85). -/
theorem regOfByte_illegal {b : Byte} (h : 8 ≤ b.toNat) : regOfByte b = .error (.illegal b) := by
  rw [regOfByte, dif_neg (by omega)]

/-- A legal register operand names the register of that number (R84). -/
theorem regOfByte_legal {b : Byte} (h : b.toNat < 8) : regOfByte b = .ok ⟨b.toNat, h⟩ := by
  rw [regOfByte, dif_pos h]

/-- The decoder on an opcode byte of the table reads that row's operands. -/
theorem decode_opcode {c : Config} (h : c.wf = true) (m : Mnemonic) (ops : List Byte) :
    decode c (c.opcode m :: ops) = decodeOperands m ops := by
  rw [decode, Config.mnemonicOf_opcode h]

/-- The decoder on a byte that is no opcode byte (R91). -/
theorem decode_unrecognised {c : Config} {ir : Byte} (h : ∀ m, c.opcode m ≠ ir) (ops : List Byte) :
    decode c (ir :: ops) = .error (.illegal ir) := by
  rw [decode, Config.mnemonicOf_eq_none.2 h]

end Sys2Proof
end

