-- ==== Sys2Proof/Laws/State.lean ====
section
/-! SUPPORT. One lemma per field per update of the state, and reads of a register after a write of one. -/

namespace Sys2Proof.Machine

section setReg

@[simp] theorem State.setReg_cfg (s : State) (r : Reg) (v : Byte) : (s.setReg r v).cfg = s.cfg := rfl
@[simp] theorem State.setReg_x (s : State) (r : Reg) (v : Byte) : (s.setReg r v).x = s.x.set r v := rfl
@[simp] theorem State.setReg_pc (s : State) (r : Reg) (v : Byte) : (s.setReg r v).pc = s.pc := rfl
@[simp] theorem State.setReg_e (s : State) (r : Reg) (v : Byte) : (s.setReg r v).e = s.e := rfl
@[simp] theorem State.setReg_run (s : State) (r : Reg) (v : Byte) : (s.setReg r v).run = s.run := rfl
@[simp] theorem State.setReg_cause (s : State) (r : Reg) (v : Byte) : (s.setReg r v).cause = s.cause := rfl
@[simp] theorem State.setReg_info (s : State) (r : Reg) (v : Byte) : (s.setReg r v).info = s.info := rfl
@[simp] theorem State.setReg_mem (s : State) (r : Reg) (v : Byte) : (s.setReg r v).mem = s.mem := rfl
@[simp] theorem State.setReg_out (s : State) (r : Reg) (v : Byte) : (s.setReg r v).out = s.out := rfl

end setReg

section setPc

@[simp] theorem State.setPc_cfg (s : State) (v : Pc) : (s.setPc v).cfg = s.cfg := rfl
@[simp] theorem State.setPc_x (s : State) (v : Pc) : (s.setPc v).x = s.x := rfl
@[simp] theorem State.setPc_pc (s : State) (v : Pc) : (s.setPc v).pc = v := rfl
@[simp] theorem State.setPc_e (s : State) (v : Pc) : (s.setPc v).e = s.e := rfl
@[simp] theorem State.setPc_run (s : State) (v : Pc) : (s.setPc v).run = s.run := rfl
@[simp] theorem State.setPc_cause (s : State) (v : Pc) : (s.setPc v).cause = s.cause := rfl
@[simp] theorem State.setPc_info (s : State) (v : Pc) : (s.setPc v).info = s.info := rfl
@[simp] theorem State.setPc_mem (s : State) (v : Pc) : (s.setPc v).mem = s.mem := rfl
@[simp] theorem State.setPc_out (s : State) (v : Pc) : (s.setPc v).out = s.out := rfl

end setPc

section advance

@[simp] theorem State.advance_cfg (s : State) (n : Nat) : (s.advance n).cfg = s.cfg := rfl
@[simp] theorem State.advance_x (s : State) (n : Nat) : (s.advance n).x = s.x := rfl
@[simp] theorem State.advance_pc (s : State) (n : Nat) : (s.advance n).pc = s.pc + BitVec.ofNat 9 (1 + n) := rfl
@[simp] theorem State.advance_e (s : State) (n : Nat) : (s.advance n).e = s.e := rfl
@[simp] theorem State.advance_run (s : State) (n : Nat) : (s.advance n).run = s.run := rfl
@[simp] theorem State.advance_cause (s : State) (n : Nat) : (s.advance n).cause = s.cause := rfl
@[simp] theorem State.advance_info (s : State) (n : Nat) : (s.advance n).info = s.info := rfl
@[simp] theorem State.advance_mem (s : State) (n : Nat) : (s.advance n).mem = s.mem := rfl
@[simp] theorem State.advance_out (s : State) (n : Nat) : (s.advance n).out = s.out := rfl

end advance

section setE

@[simp] theorem State.setE_cfg (s : State) (b : Bool) : (s.setE b).cfg = s.cfg := rfl
@[simp] theorem State.setE_x (s : State) (b : Bool) : (s.setE b).x = s.x := rfl
@[simp] theorem State.setE_pc (s : State) (b : Bool) : (s.setE b).pc = s.pc := rfl
@[simp] theorem State.setE_e (s : State) (b : Bool) : (s.setE b).e = b := rfl
@[simp] theorem State.setE_run (s : State) (b : Bool) : (s.setE b).run = s.run := rfl
@[simp] theorem State.setE_cause (s : State) (b : Bool) : (s.setE b).cause = s.cause := rfl
@[simp] theorem State.setE_info (s : State) (b : Bool) : (s.setE b).info = s.info := rfl
@[simp] theorem State.setE_mem (s : State) (b : Bool) : (s.setE b).mem = s.mem := rfl
@[simp] theorem State.setE_out (s : State) (b : Bool) : (s.setE b).out = s.out := rfl

end setE

section emit

@[simp] theorem State.emit_cfg (s : State) (v : Byte) : (s.emit v).cfg = s.cfg := rfl
@[simp] theorem State.emit_x (s : State) (v : Byte) : (s.emit v).x = s.x := rfl
@[simp] theorem State.emit_pc (s : State) (v : Byte) : (s.emit v).pc = s.pc := rfl
@[simp] theorem State.emit_e (s : State) (v : Byte) : (s.emit v).e = s.e := rfl
@[simp] theorem State.emit_run (s : State) (v : Byte) : (s.emit v).run = s.run := rfl
@[simp] theorem State.emit_cause (s : State) (v : Byte) : (s.emit v).cause = s.cause := rfl
@[simp] theorem State.emit_info (s : State) (v : Byte) : (s.emit v).info = s.info := rfl
@[simp] theorem State.emit_mem (s : State) (v : Byte) : (s.emit v).mem = s.mem := rfl
@[simp] theorem State.emit_out (s : State) (v : Byte) : (s.emit v).out = s.out ++ [v] := rfl

end emit

section halt

@[simp] theorem State.halt_cfg (s : State) (c : Cause) (n : Pc) : (s.halt c n).cfg = s.cfg := rfl
@[simp] theorem State.halt_x (s : State) (c : Cause) (n : Pc) : (s.halt c n).x = s.x := rfl
@[simp] theorem State.halt_pc (s : State) (c : Cause) (n : Pc) : (s.halt c n).pc = s.pc := rfl
@[simp] theorem State.halt_e (s : State) (c : Cause) (n : Pc) : (s.halt c n).e = s.e := rfl
@[simp] theorem State.halt_run (s : State) (c : Cause) (n : Pc) : (s.halt c n).run = .halted := rfl
@[simp] theorem State.halt_cause (s : State) (c : Cause) (n : Pc) : (s.halt c n).cause = c := rfl
@[simp] theorem State.halt_info (s : State) (c : Cause) (n : Pc) : (s.halt c n).info = n := rfl
@[simp] theorem State.halt_mem (s : State) (c : Cause) (n : Pc) : (s.halt c n).mem = s.mem := rfl
@[simp] theorem State.halt_out (s : State) (c : Cause) (n : Pc) : (s.halt c n).out = s.out := rfl

end halt

section haltedWith

@[simp] theorem State.haltedWith_cfg (s : State) (c : Cause) (n : Nat) : (s.haltedWith c n).cfg = s.cfg := rfl
@[simp] theorem State.haltedWith_x (s : State) (c : Cause) (n : Nat) : (s.haltedWith c n).x = s.x := rfl
@[simp] theorem State.haltedWith_pc (s : State) (c : Cause) (n : Nat) : (s.haltedWith c n).pc = s.pc := rfl
@[simp] theorem State.haltedWith_e (s : State) (c : Cause) (n : Nat) : (s.haltedWith c n).e = s.e := rfl
@[simp] theorem State.haltedWith_run (s : State) (c : Cause) (n : Nat) : (s.haltedWith c n).run = .halted := rfl
@[simp] theorem State.haltedWith_cause (s : State) (c : Cause) (n : Nat) : (s.haltedWith c n).cause = c := rfl
@[simp] theorem State.haltedWith_info (s : State) (c : Cause) (n : Nat) : (s.haltedWith c n).info = BitVec.ofNat 9 n := rfl
@[simp] theorem State.haltedWith_mem (s : State) (c : Cause) (n : Nat) : (s.haltedWith c n).mem = s.mem := rfl
@[simp] theorem State.haltedWith_out (s : State) (c : Cause) (n : Nat) : (s.haltedWith c n).out = s.out := rfl

end haltedWith

section withRecord

@[simp] theorem State.withRecord_cfg (s : State) (c : Cause) (n : Pc) : (s.withRecord c n).cfg = s.cfg := rfl
@[simp] theorem State.withRecord_x (s : State) (c : Cause) (n : Pc) : (s.withRecord c n).x = s.x := rfl
@[simp] theorem State.withRecord_pc (s : State) (c : Cause) (n : Pc) : (s.withRecord c n).pc = s.pc := rfl
@[simp] theorem State.withRecord_e (s : State) (c : Cause) (n : Pc) : (s.withRecord c n).e = s.e := rfl
@[simp] theorem State.withRecord_run (s : State) (c : Cause) (n : Pc) : (s.withRecord c n).run = s.run := rfl
@[simp] theorem State.withRecord_cause (s : State) (c : Cause) (n : Pc) : (s.withRecord c n).cause = c := rfl
@[simp] theorem State.withRecord_info (s : State) (c : Cause) (n : Pc) : (s.withRecord c n).info = n := rfl
@[simp] theorem State.withRecord_mem (s : State) (c : Cause) (n : Pc) : (s.withRecord c n).mem = s.mem := rfl
@[simp] theorem State.withRecord_out (s : State) (c : Cause) (n : Pc) : (s.withRecord c n).out = s.out := rfl

end withRecord

section spUp

@[simp] theorem State.spUp_cfg (s : State) : s.spUp.cfg = s.cfg := rfl
@[simp] theorem State.spUp_x (s : State) : s.spUp.x = s.x.set Reg.sp (s.sp + 1#8) := rfl
@[simp] theorem State.spUp_pc (s : State) : s.spUp.pc = s.pc := rfl
@[simp] theorem State.spUp_e (s : State) : s.spUp.e = s.e := rfl
@[simp] theorem State.spUp_run (s : State) : s.spUp.run = s.run := rfl
@[simp] theorem State.spUp_cause (s : State) : s.spUp.cause = s.cause := rfl
@[simp] theorem State.spUp_info (s : State) : s.spUp.info = s.info := rfl
@[simp] theorem State.spUp_mem (s : State) : s.spUp.mem = s.mem := rfl
@[simp] theorem State.spUp_out (s : State) : s.spUp.out = s.out := rfl

end spUp

section construct

@[simp] theorem State.construct_cfg (c : Config) : (State.construct c).cfg = c := rfl
@[simp] theorem State.construct_x (c : Config) : (State.construct c).x = c.resetR.push c.resetSp := rfl
@[simp] theorem State.construct_pc (c : Config) : (State.construct c).pc = 0#9 := rfl
@[simp] theorem State.construct_e (c : Config) : (State.construct c).e = c.resetE := rfl
@[simp] theorem State.construct_run (c : Config) : (State.construct c).run = .running := rfl
@[simp] theorem State.construct_cause (c : Config) : (State.construct c).cause = .none := rfl
@[simp] theorem State.construct_info (c : Config) : (State.construct c).info = 0#9 := rfl
@[simp] theorem State.construct_mem (c : Config) : (State.construct c).mem = [] := rfl
@[simp] theorem State.construct_out (c : Config) : (State.construct c).out = [] := rfl

end construct

/-! Reads of a register, of `sp` and of a byte, after each update. -/

theorem State.sp_eq (s : State) : s.sp = s.reg Reg.sp := rfl

@[simp] theorem State.reg_setReg_self (s : State) (r : Reg) (v : Byte) : (s.setReg r v).reg r = v := by
  simp [State.reg, State.setReg]

theorem State.reg_setReg (s : State) (r q : Reg) (v : Byte) :
    (s.setReg r v).reg q = if q = r then v else s.reg q := by
  simp only [State.reg, State.setReg, Fin.getElem_fin, Vector.getElem_set, Fin.ext_iff, eq_comm]

@[simp] theorem State.reg_setReg_ne (s : State) {r q : Reg} (v : Byte) (h : q ≠ r) :
    (s.setReg r v).reg q = s.reg q := by
  rw [State.reg_setReg, if_neg h]

@[simp] theorem State.setReg_byteAt (s : State) (r : Reg) (v : Byte) (k : Nat) : (s.setReg r v).byteAt k = s.byteAt k := rfl
@[simp] theorem State.setPc_reg (s : State) (v : Pc) (r : Reg) : (s.setPc v).reg r = s.reg r := rfl
@[simp] theorem State.setPc_sp (s : State) (v : Pc) : (s.setPc v).sp = s.sp := rfl
@[simp] theorem State.setPc_byteAt (s : State) (v : Pc) (k : Nat) : (s.setPc v).byteAt k = s.byteAt k := rfl
@[simp] theorem State.advance_reg (s : State) (n : Nat) (r : Reg) : (s.advance n).reg r = s.reg r := rfl
@[simp] theorem State.advance_sp (s : State) (n : Nat) : (s.advance n).sp = s.sp := rfl
@[simp] theorem State.advance_byteAt (s : State) (n : Nat) (k : Nat) : (s.advance n).byteAt k = s.byteAt k := rfl
@[simp] theorem State.setE_reg (s : State) (b : Bool) (r : Reg) : (s.setE b).reg r = s.reg r := rfl
@[simp] theorem State.setE_sp (s : State) (b : Bool) : (s.setE b).sp = s.sp := rfl
@[simp] theorem State.setE_byteAt (s : State) (b : Bool) (k : Nat) : (s.setE b).byteAt k = s.byteAt k := rfl
@[simp] theorem State.emit_reg (s : State) (v : Byte) (r : Reg) : (s.emit v).reg r = s.reg r := rfl
@[simp] theorem State.emit_sp (s : State) (v : Byte) : (s.emit v).sp = s.sp := rfl
@[simp] theorem State.emit_byteAt (s : State) (v : Byte) (k : Nat) : (s.emit v).byteAt k = s.byteAt k := rfl
@[simp] theorem State.halt_reg (s : State) (c : Cause) (n : Pc) (r : Reg) : (s.halt c n).reg r = s.reg r := rfl
@[simp] theorem State.halt_sp (s : State) (c : Cause) (n : Pc) : (s.halt c n).sp = s.sp := rfl
@[simp] theorem State.halt_byteAt (s : State) (c : Cause) (n : Pc) (k : Nat) : (s.halt c n).byteAt k = s.byteAt k := rfl
@[simp] theorem State.haltedWith_reg (s : State) (c : Cause) (n : Nat) (r : Reg) : (s.haltedWith c n).reg r = s.reg r := rfl
@[simp] theorem State.haltedWith_sp (s : State) (c : Cause) (n : Nat) : (s.haltedWith c n).sp = s.sp := rfl
@[simp] theorem State.haltedWith_byteAt (s : State) (c : Cause) (n : Nat) (k : Nat) : (s.haltedWith c n).byteAt k = s.byteAt k := rfl
@[simp] theorem State.withRecord_reg (s : State) (c : Cause) (n : Pc) (r : Reg) : (s.withRecord c n).reg r = s.reg r := rfl
@[simp] theorem State.withRecord_sp (s : State) (c : Cause) (n : Pc) : (s.withRecord c n).sp = s.sp := rfl
@[simp] theorem State.withRecord_byteAt (s : State) (c : Cause) (n : Pc) (k : Nat) : (s.withRecord c n).byteAt k = s.byteAt k := rfl
@[simp] theorem State.spUp_byteAt (s : State) (k : Nat) : s.spUp.byteAt k = s.byteAt k := rfl

@[simp] theorem State.setReg_sp_self (s : State) (v : Byte) : (s.setReg Reg.sp v).sp = v :=
  s.reg_setReg_self Reg.sp v

@[simp] theorem State.spUp_sp (s : State) : s.spUp.sp = s.sp + 1#8 := s.reg_setReg_self Reg.sp _

theorem State.spUp_reg (s : State) (q : Reg) : s.spUp.reg q = if q = Reg.sp then s.sp + 1#8 else s.reg q :=
  s.reg_setReg Reg.sp q _

end Sys2Proof.Machine
end

