-- ==== Sys2Proof/Laws/Memory.lean ====
section
/-! SUPPORT. The laws of memory: a read after a write, and that a write keeps the canonical form. -/

namespace Sys2Proof.Machine

theorem Memory.wf_cons {e : Host.Cell} {m : Memory} :
    Memory.wf (e :: m) = true ↔ e.2 ≠ Memory.unlisted ∧ (∀ c ∈ m, e.1 < c.1) ∧ Memory.wf m = true := by
  simp [Memory.wf, Memory.allAbove, and_assoc]

/-- An address below every listed one reads as an unlisted address does. -/
theorem Memory.get_of_below {m : Memory} {a : Nat} (h : ∀ c ∈ m, a < c.1) : m.get a = Memory.unlisted := by
  induction m with
  | nil => rfl
  | cons e m ih =>
    have he : e.1 ≠ a := by have := h e (by simp); omega
    rw [Memory.get, if_neg he]
    exact ih fun c hc => h c (by simp [hc])

theorem Memory.get_entry_ne {m : Memory} {a b : Nat} (v : Byte) (h : b ≠ a) : (Memory.entry a v m).get b = m.get b := by
  unfold Memory.entry
  split
  · rfl
  · simp [Memory.get, h.symm]

theorem Memory.get_entry_self {m : Memory} {a : Nat} (v : Byte) (h : ∀ c ∈ m, a < c.1) :
    (Memory.entry a v m).get a = v := by
  unfold Memory.entry
  split
  · next hv => rw [Memory.get_of_below h, hv]
  · simp [Memory.get]

/-- A write leaves every other address alone, in any list. -/
theorem Memory.get_set_ne (m : Memory) {a b : Nat} (v : Byte) (h : b ≠ a) : (m.set a v).get b = m.get b := by
  induction m with
  | nil => exact Memory.get_entry_ne v h
  | cons e m ih =>
    unfold Memory.set
    split
    · exact Memory.get_entry_ne v h
    split
    · next h2 =>
      rw [Memory.get_entry_ne v h, Memory.get, if_neg (by omega)]
    · simp [Memory.get, ih]

/-- A read after a write to the same address gives the byte written, in a canonical memory. -/
theorem Memory.get_set_self {m : Memory} (hm : m.wf = true) (a : Nat) (v : Byte) : (m.set a v).get a = v := by
  induction m with
  | nil => exact Memory.get_entry_self v (by simp)
  | cons e m ih =>
    obtain ⟨he, hb, hm'⟩ := Memory.wf_cons.1 hm
    unfold Memory.set
    split
    · next h1 =>
      refine Memory.get_entry_self v fun c hc => ?_
      rcases List.mem_cons.1 hc with rfl | hc
      · exact h1
      · exact Nat.lt_trans h1 (hb c hc)
    split
    · next h2 => exact Memory.get_entry_self v (by simpa [h2] using hb)
    · next h2 => rw [Memory.get, if_neg (by omega), ih hm']

theorem Memory.mem_entry {m : Memory} {a : Nat} {v : Byte} {c : Host.Cell} (h : c ∈ Memory.entry a v m) :
    c.1 = a ∨ c ∈ m := by
  unfold Memory.entry at h
  split at h
  · exact .inr h
  · rcases List.mem_cons.1 h with rfl | h
    · exact .inl rfl
    · exact .inr h

/-- Every entry after a write is the written address's or was there before. -/
theorem Memory.mem_set {m : Memory} {a : Nat} {v : Byte} {c : Host.Cell} (h : c ∈ m.set a v) : c.1 = a ∨ c ∈ m := by
  induction m with
  | nil => exact Memory.mem_entry h
  | cons e m ih =>
    unfold Memory.set at h
    split at h
    · exact Memory.mem_entry h
    split at h
    · exact (Memory.mem_entry h).imp_right fun h => List.mem_cons_of_mem _ h
    · rcases List.mem_cons.1 h with rfl | h
      · exact .inr (by simp)
      · exact (ih h).imp_right fun h => List.mem_cons_of_mem _ h

theorem Memory.wf_entry {m : Memory} (hm : m.wf = true) {a : Nat} (v : Byte) (h : ∀ c ∈ m, a < c.1) :
    (Memory.entry a v m).wf = true := by
  unfold Memory.entry
  split
  · exact hm
  · next hv => exact Memory.wf_cons.2 ⟨hv, h, hm⟩

/-- A write keeps the canonical form. -/
theorem Memory.wf_set {m : Memory} (hm : m.wf = true) (a : Nat) (v : Byte) : (m.set a v).wf = true := by
  induction m with
  | nil => exact Memory.wf_entry rfl v (by simp)
  | cons e m ih =>
    obtain ⟨he, hb, hm'⟩ := Memory.wf_cons.1 hm
    unfold Memory.set
    split
    · next h1 =>
      refine Memory.wf_entry hm v fun c hc => ?_
      rcases List.mem_cons.1 hc with rfl | hc
      · exact h1
      · exact Nat.lt_trans h1 (hb c hc)
    split
    · next h2 => exact Memory.wf_entry hm' v (by simpa [h2] using hb)
    · next h1 h2 =>
      refine Memory.wf_cons.2 ⟨he, fun c hc => ?_, ih hm'⟩
      rcases Memory.mem_set hc with h | h
      · omega
      · exact hb c h

/-- Equal reads make equal memories: the canonical form is canonical. -/
theorem Memory.ext_of_wf {m n : Memory} (hm : m.wf = true) (hn : n.wf = true) (h : ∀ a, m.get a = n.get a) : m = n := by
  induction m generalizing n with
  | nil =>
    cases n with
    | nil => rfl
    | cons f n =>
      have := h f.1
      simp only [Memory.get, if_true] at this
      exact absurd this.symm (Memory.wf_cons.1 hn).1
  | cons e m ih =>
    obtain ⟨he, hb, hm'⟩ := Memory.wf_cons.1 hm
    cases n with
    | nil =>
      have := h e.1
      simp only [Memory.get, if_true] at this
      exact absurd this he
    | cons f n =>
      obtain ⟨hf, hc, hn'⟩ := Memory.wf_cons.1 hn
      have key : e.1 = f.1 := by
        rcases Nat.lt_trichotomy e.1 f.1 with hlt | heq | hlt
        · have hE : Memory.get (f :: n) e.1 = Memory.unlisted := by
            refine Memory.get_of_below fun c hcn => ?_
            rcases List.mem_cons.1 hcn with rfl | hcn
            · exact hlt
            · exact Nat.lt_trans hlt (hc c hcn)
          have := h e.1
          rw [hE] at this
          simp only [Memory.get, if_true] at this
          exact absurd this he
        · exact heq
        · have hF : Memory.get (e :: m) f.1 = Memory.unlisted := by
            refine Memory.get_of_below fun c hcm => ?_
            rcases List.mem_cons.1 hcm with rfl | hcm
            · exact hlt
            · exact Nat.lt_trans hlt (hb c hcm)
          have := h f.1
          rw [hF] at this
          simp only [Memory.get, if_true] at this
          exact absurd this.symm hf
      have hv : e.2 = f.2 := by
        have := h e.1
        simpa [Memory.get, key] using this
      have hef : e = f := Prod.ext key hv
      subst hef
      refine congrArg _ (ih hm' hn' fun a => ?_)
      have := h a
      by_cases ha : e.1 = a
      · subst ha
        rw [Memory.get_of_below hb, Memory.get_of_below hc]
      · simpa [Memory.get, ha] using this

end Sys2Proof.Machine
end

