-- ==== Sys2Proof/Laws/Ops.lean ====
section
/-! SUPPORT. What each shared operation can do, said once. -/

namespace Sys2Proof.Machine

@[simp] theorem zext9_toNat (b : Byte) : (zext9 b).toNat = b.toNat := by
  have := b.isLt
  simp only [zext9, BitVec.toNat_setWidth]
  omega

@[simp] theorem low8_toNat (n : Nat) : (low8 n).toNat = n % 256 := by simp [low8]

/-- The generic advance does not wrap where an instruction can run: its opcode byte lies below 256 (R26, R117). -/
theorem State.advance_pc_toNat {s : State} (h : s.pc.toNat < 256) {n : Nat} (hn : n ≤ 2) :
    (s.advance n).pc.toNat = s.pc.toNat + 1 + n := by
  simp only [State.advance_pc, BitVec.toNat_add, BitVec.toNat_ofNat]
  omega

/-- A read answers the byte in range and MemoryFault out of range, and nothing else (R52). -/
theorem State.memRead_cases (s : State) (a : Nat) :
    (a < s.cfg.memSize ∧ s.memRead a = .ok (s.byteAt a)) ∨
    (s.cfg.memSize ≤ a ∧ s.memRead a = .error (.memoryFault a)) := by
  unfold State.memRead
  split
  · exact .inl ⟨‹_›, rfl⟩
  · exact .inr ⟨by omega, rfl⟩

theorem State.memRead_inside {s : State} {a : Nat} (h : a < s.cfg.memSize) : s.memRead a = .ok (s.byteAt a) := by
  rw [State.memRead, if_pos h]

theorem State.memRead_outside {s : State} {a : Nat} (h : s.cfg.memSize ≤ a) :
    s.memRead a = .error (.memoryFault a) := by
  rw [State.memRead, if_neg (by omega)]

theorem State.memWrite_inside {s : State} {a : Nat} (h : a < s.cfg.memSize) (v : Byte) :
    s.memWrite a v = .ok { s with mem := s.mem.set a v } := by
  rw [State.memWrite, if_pos h]

theorem State.memWrite_outside {s : State} {a : Nat} (h : s.cfg.memSize ≤ a) (v : Byte) :
    s.memWrite a v = .error (.memoryFault a) := by
  rw [State.memWrite, if_neg (by omega)]

/-- A write that answers a state changed one byte of memory and nothing else (R53). -/
theorem State.memWrite_ok {s t : State} {a : Nat} {v : Byte} (h : s.memWrite a v = .ok t) :
    a < s.cfg.memSize ∧ t = { s with mem := s.mem.set a v } := by
  unfold State.memWrite at h
  split at h
  · exact ⟨‹_›, (Except.ok.inj h).symm⟩
  · cases h

/-- Every other byte is as before a write. -/
theorem State.byteAt_memWrite_ne {s t : State} {a b : Nat} {v : Byte} (h : s.memWrite a v = .ok t) (hb : b ≠ a) :
    t.byteAt b = s.byteAt b := by
  obtain ⟨-, rfl⟩ := State.memWrite_ok h
  exact Memory.get_set_ne s.mem v hb

/-- The written byte is the byte written, in a canonical memory. -/
theorem State.byteAt_memWrite_self {s t : State} {a : Nat} {v : Byte} (hm : s.mem.wf = true)
    (h : s.memWrite a v = .ok t) : t.byteAt a = v := by
  obtain ⟨-, rfl⟩ := State.memWrite_ok h
  exact Memory.get_set_self hm a v

/-- The decrement of SP answers only where the new address exists, and then changes SP alone (R160, R170). -/
theorem State.spDown_inside {s : State} (h : (s.sp - 1#8).toNat < s.cfg.memSize) :
    s.spDown = .ok (s.setReg Reg.sp (s.sp - 1#8)) := by
  rw [State.spDown, if_pos h]

theorem State.spDown_outside {s : State} (h : s.cfg.memSize ≤ (s.sp - 1#8).toNat) :
    s.spDown = .error (.memoryFault (s.sp - 1#8).toNat) := by
  rw [State.spDown, if_neg (by omega)]

theorem State.top_inside {s : State} (h : s.sp.toNat < s.cfg.memSize) : s.top = .ok (s.byteAt s.sp.toNat) :=
  State.memRead_inside h

theorem State.top_outside {s : State} (h : s.cfg.memSize ≤ s.sp.toNat) : s.top = .error (.memoryFault s.sp.toNat) :=
  State.memRead_outside h

/-- Decrement SP and store at it: the shared part of PUSH and CALL, where the new address exists. -/
theorem State.storeTop_after_spDown {s : State} (h : (s.sp - 1#8).toNat < s.cfg.memSize) (v : Byte) :
    (s.setReg Reg.sp (s.sp - 1#8)).storeTop v =
      .ok { s.setReg Reg.sp (s.sp - 1#8) with mem := s.mem.set (s.sp - 1#8).toNat v } := by
  rw [State.storeTop, State.setReg_sp_self, State.memWrite_inside (by simpa using h)]
  rfl

/-- A fault taken is the state before with a halt record (R203, R204). -/
theorem State.raise_memoryFault (s : State) (a : Nat) : s.raise (.memoryFault a) = s.haltedWith .memoryFault a := rfl

theorem State.raise_illegalInstruction (s : State) (v : Byte) :
    s.raise (.illegalInstruction v) = s.haltedWith .illegalInstruction v.toNat := by
  have : zext9 v = BitVec.ofNat 9 v.toNat := BitVec.eq_of_toNat_eq (by
    have := v.isLt
    simp only [zext9_toNat, BitVec.toNat_ofNat]
    omega)
  simp only [State.raise, State.halt, State.haltedWith, this]

/-- A settled execute phase answers a next state, its result or the fault taken; it never faults or refuses. -/
theorem State.settle_cases (s : State) (r : Except Fault State) :
    (∃ t, r = .ok t ∧ s.settle r = .next t) ∨ (∃ f, r = .error f ∧ s.settle r = .next (s.raise f)) := by
  cases r with
  | ok t => exact .inl ⟨t, rfl, rfl⟩
  | error f => exact .inr ⟨f, rfl, rfl⟩

/-- The host's load writes the byte in range and does nothing out of range (R237). -/
theorem State.load_cases (s : State) (a : Nat) (v : Byte) :
    (a < s.cfg.memSize ∧ s.load a v = { s with mem := s.mem.set a v }) ∨
    (s.cfg.memSize ≤ a ∧ s.load a v = s) := by
  rcases Nat.lt_or_ge a s.cfg.memSize with h | h
  · exact .inl ⟨h, by rw [State.load, State.memWrite_inside h]⟩
  · exact .inr ⟨h, by rw [State.load, State.memWrite_outside h]⟩

/-- Every memory operation keeps the canonical form: a write of an instruction. -/
theorem State.memWrite_keeps_wf {s t : State} {a : Nat} {v : Byte} (hm : s.mem.wf = true)
    (h : s.memWrite a v = .ok t) : t.mem.wf = true := by
  obtain ⟨-, rfl⟩ := State.memWrite_ok h
  exact Memory.wf_set hm a v

/-- Every memory operation keeps the canonical form: a load of the host. -/
theorem State.load_keeps_wf {s : State} (hm : s.mem.wf = true) (a : Nat) (v : Byte) : (s.load a v).mem.wf = true := by
  rcases s.load_cases a v with ⟨-, h⟩ | ⟨-, h⟩ <;> rw [h]
  · exact Memory.wf_set hm a v
  · exact hm

theorem State.loadFrom_keeps_wf {s : State} (hm : s.mem.wf = true) (a : Nat) (vs : List Byte) :
    (s.loadFrom a vs).mem.wf = true := by
  induction vs generalizing s a with
  | nil => exact hm
  | cons v vs ih => exact ih (State.load_keeps_wf hm a v) (a + 1)

/-- The reset memory has the canonical form. -/
theorem State.construct_mem_wf (c : Config) : (State.construct c).mem.wf = true := rfl

theorem State.reset_mem_wf : State.reset.mem.wf = true := rfl

/-- A read-ahead gives the byte in range, and out of range nothing or, under STRICT_READAHEAD, a fault (R112). -/
theorem State.readAhead_cases (s : State) (a : Nat) :
    (a < s.cfg.memSize ∧ s.readAhead a = .ok (some (s.byteAt a))) ∨
    (s.cfg.memSize ≤ a ∧ s.cfg.strictReadAhead = false ∧ s.readAhead a = .ok none) ∨
    (s.cfg.memSize ≤ a ∧ s.cfg.strictReadAhead = true ∧ s.readAhead a = .error (.memoryFault a)) := by
  unfold State.readAhead
  split
  · exact .inl ⟨‹_›, rfl⟩
  split
  · exact .inr (.inr ⟨by omega, ‹_›, rfl⟩)
  · exact .inr (.inl ⟨by omega, Bool.eq_false_iff.2 ‹_›, rfl⟩)

/-- An operand slot's read-ahead where the fetch cannot fault: the byte if there is one (R112). -/
theorem State.readAhead_of_canFetch {s : State} (h : s.CanFetch) {k : Nat} (hk : k ≤ 2) :
    s.readAhead (s.pc.toNat + k) =
      .ok (if s.pc.toNat + k < s.cfg.memSize then some (s.byteAt (s.pc.toNat + k)) else none) := by
  rcases s.readAhead_cases (s.pc.toNat + k) with ⟨h1, e⟩ | ⟨h1, -, e⟩ | ⟨h1, hs, -⟩
  · rw [e, if_pos h1]
  · rw [e, if_neg (by omega)]
  · have := h.strictInside hs
    omega

/-- Where the fetch cannot fault it answers exactly the bytes of the instruction that lie in memory (R111, R112). -/
theorem State.fetchBytes_of_canFetch {s : State} (h : s.CanFetch) : s.fetchBytes = .ok s.codeBytes := by
  simp only [State.fetchBytes, State.codeBytes, State.memRead_inside h.opcodeInside,
    State.readAhead_of_canFetch h (k := 1) (by omega), State.readAhead_of_canFetch h (k := 2) (by omega)]
  by_cases h1 : s.pc.toNat + 1 < s.cfg.memSize <;> by_cases h2 : s.pc.toNat + 2 < s.cfg.memSize <;>
    simp [h1, h2, h.opcodeInside]

/-- A step in a Running machine of this spec whose fetch and decode answer an instruction executes it (R120). -/
theorem step_fetch_ok {s : State} (hr : s.run = .running) (hc : s.cfg.wf = true) {i : Instr} (h : s.fetch = .ok i) :
    step s = exec i s := by
  simp [step, hr, hc, h]

/-- A step in a Running machine of this spec whose fetch or decode raises a fault takes it (R120). -/
theorem step_fetch_error {s : State} (hr : s.run = .running) (hc : s.cfg.wf = true) {f : Fault}
    (h : s.fetch = .error f) : step s = .next (s.raise f) := by
  simp [step, hr, hc, h]

/-- A fetch that answers bytes is the fetch of a machine that `CanFetch`: nothing else gets past R111 and R112. -/
theorem State.canFetch_of_fetchBytes {s : State} (hr : s.run = .running) (hc : s.cfg.wf = true) {bs : List Byte}
    (h : s.fetchBytes = .ok bs) : s.CanFetch := by
  unfold State.fetchBytes at h
  rcases s.memRead_cases s.pc.toNat with ⟨h0, e0⟩ | ⟨-, e0⟩
  case inr => simp [e0] at h
  refine ⟨hr, hc, h0, fun hs => ?_⟩
  rcases s.readAhead_cases (s.pc.toNat + 1) with ⟨-, e1⟩ | ⟨-, hf, -⟩ | ⟨-, -, e1⟩
  case inr.inl => simp [hs] at hf
  case inr.inr => simp [e0, e1] at h
  rcases s.readAhead_cases (s.pc.toNat + 2) with ⟨h2, -⟩ | ⟨-, hf, -⟩ | ⟨-, -, e2⟩
  case inl => exact h2
  case inr.inl => simp [hs] at hf
  case inr.inr => simp [e0, e1, e2] at h

/-- A fault taken is one of the two causes, with the record of R201, and nothing else changed. -/
theorem State.raise_cases (s : State) (f : Fault) :
    (∃ a, f = .memoryFault a ∧ s.raise f = s.haltedWith .memoryFault a) ∨
    (∃ v, f = .illegalInstruction v ∧ s.raise f = s.haltedWith .illegalInstruction v.toNat) := by
  cases f with
  | memoryFault a => exact .inl ⟨a, rfl, s.raise_memoryFault a⟩
  | illegalInstruction v => exact .inr ⟨v, rfl, s.raise_illegalInstruction v⟩

/-- A step in a Halted machine changes nothing (R110). -/
theorem step_halted {s : State} (h : s.run = .halted) : step s = .next s := by
  simp [step, h]

/-- Everything a step that answers a next state can have done: nothing, in Halted; else, in a machine of this spec, a fault
of fetch or decode taken, or one instruction executed. -/
theorem step_cases {s t : State} (h : step s = .next t) :
    (s.run = .halted ∧ t = s) ∨
    (s.run = .running ∧ s.cfg.wf = true ∧
      ((∃ f, s.fetch = .error f ∧ t = s.raise f) ∨ (∃ i, s.CanFetch ∧ s.fetch = .ok i ∧ exec i s = .next t))) := by
  cases hr : s.run with
  | halted =>
    rw [step_halted hr] at h
    exact .inl ⟨rfl, (Host.Outcome.next.inj h).symm⟩
  | running =>
    cases hc : s.cfg.wf with
    | false => simp [step, hr, hc] at h
    | true =>
      refine .inr ⟨rfl, rfl, ?_⟩
      cases hf : s.fetch with
      | error f =>
        rw [step_fetch_error hr hc hf] at h
        exact .inl ⟨f, rfl, (Host.Outcome.next.inj h).symm⟩
      | ok i =>
        rw [step_fetch_ok hr hc hf] at h
        refine .inr ⟨i, ?_, rfl, h⟩
        cases hb : s.fetchBytes with
        | error f => simp [State.fetch, hb] at hf
        | ok bs => exact State.canFetch_of_fetchBytes hr hc hb

end Sys2Proof.Machine
end

