-- ==== Sys2Proof/Laws/PerInstr.lean ====
section
/-! SUPPORT. What holds of every instruction as syntax, one lemma per constructor: the form of its encoding. -/

namespace Sys2Proof.Laws.EncodingForm

/-- An instruction's encoding is as long as the instruction, opens with its opcode byte, and, in a machine of this spec,
bits 7:6 of that byte say how many operand bytes follow (R80, R81, R93). -/
def Statement (i : Instr) : Prop :=
  ∀ c : Config, (encode c i).length = i.length ∧ (encode c i).head? = some (c.opcode i.mnemonic) ∧
    (c.wf = true → (encode c i).length = 1 + (c.opcode i.mnemonic >>> 6).toNat)

/-- The three clauses from the one fact that varies: how many operand bytes the encoder writes. -/
theorem of_operandBytes {i : Instr} (h : i.operandBytes.length = i.mnemonic.count) : Statement i := fun c =>
  have hl : (encode c i).length = i.length := by simp [encode, Instr.length, h, Nat.add_comm]
  ⟨hl, rfl, fun hc => by rw [hl, Config.opcode_count hc, Instr.length]⟩

theorem hlt : Statement .hlt := of_operandBytes rfl
theorem ldi (a : Reg) (b : Byte) : Statement (.ldi a b) := of_operandBytes rfl
theorem prn (a : Reg) : Statement (.prn a) := of_operandBytes rfl
theorem mul (a b : Reg) : Statement (.mul a b) := of_operandBytes rfl
theorem add (a b : Reg) : Statement (.add a b) := of_operandBytes rfl
theorem push (a : Reg) : Statement (.push a) := of_operandBytes rfl
theorem pop (a : Reg) : Statement (.pop a) := of_operandBytes rfl
theorem call (a : Reg) : Statement (.call a) := of_operandBytes rfl
theorem ret : Statement .ret := of_operandBytes rfl
theorem cmp (a b : Reg) : Statement (.cmp a b) := of_operandBytes rfl
theorem jmp (a : Reg) : Statement (.jmp a) := of_operandBytes rfl
theorem jeq (a : Reg) : Statement (.jeq a) := of_operandBytes rfl
theorem jne (a : Reg) : Statement (.jne a) := of_operandBytes rfl

end Sys2Proof.Laws.EncodingForm
end

