-- ==== Sys2Proof/Tests/Slice0.lean ====
section
/-! SUPPORT. The model's own tests. Expected results are the spec's: the encodings of 30_encoding.md, the vectors V<n> and
examples S<n> of 95_test_vectors.md, the examples of the instruction rules. Each test of the machine is one step. Then, for
every statement with hypotheses, a state and operands that meet them. -/

open Sys2Proof Sys2Proof.Machine Sys2Proof.Claims

namespace Sys2Proof.Tests

/-! ## Decoding: a word written out bit by bit from R81, R82, R86 for every constructor -/

theorem test_decode_hlt : decode Config.default [0b00000001#8] = .ok .hlt := by decide
theorem test_decode_ldi : decode Config.default [0b10011001#8, 0b00000011#8, 0b11111111#8] = .ok (.ldi 3 255#8) := by decide
theorem test_decode_prn : decode Config.default [0b01000011#8, 0b00000010#8] = .ok (.prn 2) := by decide
theorem test_decode_mul : decode Config.default [0b10101010#8, 0b00000010#8, 0b00000011#8] = .ok (.mul 2 3) := by decide
theorem test_decode_add : decode Config.default [0b10101000#8, 0b00000111#8, 0b00000000#8] = .ok (.add 7 0) := by decide
theorem test_decode_push : decode Config.default [0b01001101#8, 0b00000111#8] = .ok (.push 7) := by decide
theorem test_decode_pop : decode Config.default [0b01001100#8, 0b00000001#8] = .ok (.pop 1) := by decide
theorem test_decode_call : decode Config.default [0b01001000#8, 0b00000001#8] = .ok (.call 1) := by decide
theorem test_decode_ret : decode Config.default [0b00001001#8] = .ok .ret := by decide
theorem test_decode_cmp : decode Config.default [0b10100000#8, 0b00000000#8, 0b00000001#8] = .ok (.cmp 0 1) := by decide
theorem test_decode_jmp : decode Config.default [0b01010000#8, 0b00000011#8] = .ok (.jmp 3) := by decide
theorem test_decode_jeq : decode Config.default [0b01010001#8, 0b00000100#8] = .ok (.jeq 4) := by decide
theorem test_decode_jne : decode Config.default [0b01010010#8, 0b00000101#8] = .ok (.jne 5) := by decide

/-- V60 to V63: bytes of no row are refused by name, `0xFF`, `0x00`, top bits 11, HLT's low bits with another count. -/
theorem test_decode_unrecognised :
    decode Config.default [0xFF#8] = .error (.illegal 0xFF#8) ∧ decode Config.default [0x00#8] = .error (.illegal 0x00#8) ∧
    decode Config.default [0xC1#8] = .error (.illegal 0xC1#8) ∧
    decode Config.default [0x41#8, 0#8] = .error (.illegal 0x41#8) := by decide

/-- V18, V71, R113: operand A is tested before B, and presence before register numbers. -/
theorem test_decode_operand_order :
    decode Config.default [0xA8#8, 0x09#8, 0x0A#8] = .error (.illegal 0x09#8) ∧
    decode Config.default [0xA8#8, 0x00#8, 0x09#8] = .error (.illegal 0x09#8) ∧
    decode Config.default [0x99#8, 0x09#8] = .error (.operandMissing 2) ∧
    decode Config.default [0x99#8] = .error (.operandMissing 1) ∧ decode Config.default [] = .error .noOpcode := by decide

/-- The host's numbering: the first byte is bits 7 to 0, the second bits 15 to 8 (the table's one-byte rows too). -/
theorem test_decodeTableWord :
    decodeTableWord 24 0x080099 = some (.ldi 0 8#8) ∧ decodeTableWord 8 0x99 = some (.ldi 0 0#8) ∧
    decodeTableWord 8 0x01 = some .hlt ∧ decodeTableWord 16 0x0743 = some (.prn 7) ∧ decodeTableWord 8 0xFF = none := by
  decide

/-! ## Well-formedness: an ill-formed term for each check -/

theorem test_wf_default : Config.default.wf = true := by decide

/-- R6, D3: no memory, and more than 256 bytes. -/
theorem test_wf_memSize :
    ({ Config.default with memSize := 0 }).memSizeLegal = false ∧ ({ Config.default with memSize := 257 }).memSizeLegal = false ∧
    ({ Config.default with memSize := 0 }).wf = false ∧ ({ Config.default with memSize := 257 }).wf = false := by decide

/-- R89 a: RET with the count bits of a one-operand instruction. -/
theorem test_wf_countBits :
    ({ Config.default with opcRet := 0x49#8 }).countBitsLegal = false ∧ ({ Config.default with opcRet := 0x49#8 }).wf = false := by
  decide

/-- R89 b, c: two mnemonics with one byte, and RET with the byte of HLT. -/
theorem test_wf_distinct :
    ({ Config.default with opcJeq := 0x50#8 }).opcodesDistinct = false ∧ ({ Config.default with opcJeq := 0x50#8 }).wf = false ∧
    ({ Config.default with opcRet := 0x01#8 }).wf = false := by decide

/-- R85, R90: a register operand of 8 is ill formed, an immediate never; a byte too few, a byte too many, no opcode byte. -/
theorem test_wf_words :
    wellFormedWords Config.default [0x43#8, 0x07#8] = true ∧ wellFormedWords Config.default [0x43#8, 0x08#8] = false ∧
    wellFormedWords Config.default [0x99#8, 0x00#8, 0xFF#8] = true ∧ wellFormedWords Config.default [0xA8#8, 0x00#8, 0x08#8] = false ∧
    wellFormedWords Config.default [0x43#8] = false ∧ wellFormedWords Config.default [0x01#8, 0x00#8] = false ∧
    wellFormedWords Config.default [0xFF#8] = false ∧ wellFormedWords Config.default [] = false := by decide

/-! ## States of the tests -/

/-- The parameters with sixteen bytes of memory, the "N = 10" (hex) of the vectors. -/
def small : Config := { Config.default with memSize := 16 }

/-- The same with STRICT_READAHEAD. -/
def strict : Config := { small with strictReadAhead := true }

/-- A machine with these bytes loaded at `pc` and these registers set. -/
def machine (c : Config) (pc : Nat) (code : List Byte) (regs : List (Reg × Byte)) : State :=
  regs.foldl (fun s r => s.setReg r.1 r.2) { (State.construct c).loadFrom pc code with pc := BitVec.ofNat 9 pc }

/-- The state a step answers, where it answers one. -/
def nextOf (s : State) : Option State :=
  match step s with
  | .next t => some t
  | .fault _ => none
  | .refused _ => none

/-- What a vector says of the halted state: run state, cause and `info`. -/
def record (s : State) : RunState × Cause × Nat := (s.run, s.cause, s.info.toNat)

/-! ## The instructions, one step each -/

/-- V1: HLT. -/
theorem test_hlt : (nextOf (machine Config.default 0 [0x01#8] [])).map (fun t => (record t, t.pc.toNat)) =
    some ((.halted, .hlt, 0), 1) := by decide

/-- V65: HLT in the last byte of memory halts cleanly; under STRICT_READAHEAD it faults. -/
theorem test_hlt_last_byte :
    (nextOf (machine small 15 [0x01#8] [])).map (fun t => (record t, t.pc.toNat)) = some ((.halted, .hlt, 15), 16) ∧
    (nextOf (machine strict 15 [0x01#8] [])).map (fun t => (record t, t.pc.toNat)) =
      some ((.halted, .memoryFault, 16), 15) := by decide

/-- V3: LDI R7,F0 sets the stack pointer. -/
theorem test_ldi : (nextOf (machine Config.default 0 [0x99#8, 0x07#8, 0xF0#8] [])).map (fun t => (t.sp, t.reg 0, t.pc.toNat)) =
    some (0xF0#8, 0x00#8, 3) := by decide

/-- V4 and V66: LDI R8 is illegal; LDI with its immediate outside memory is a MemoryFault. -/
theorem test_ldi_faults :
    (nextOf (machine Config.default 0 [0x99#8, 0x08#8, 0x01#8] [])).map record = some (.halted, .illegalInstruction, 8) ∧
    (nextOf (machine small 14 [0x99#8, 0x00#8] [])).map record = some (.halted, .memoryFault, 16) := by decide

/-- V5: PRN of 255. -/
theorem test_prn : (nextOf (machine Config.default 0 [0x43#8, 0x02#8] [(2, 0xFF#8)])).map (fun t => (t.out, t.pc.toNat)) =
    some ([0xFF#8], 2) := by decide

/-- R142: the console's lines of 8, 255 and 0. -/
theorem test_console : consoleLine 8#8 = ['8'] ∧ consoleLine 255#8 = ['2', '5', '5'] ∧ consoleLine 0#8 = ['0'] ∧
    consoleText [0x2C#8, 0x00#8] = ['4', '4', '\n', '0', '\n'] := by decide

/-- V14: the product 65025 keeps its low byte. -/
theorem test_mul : (nextOf (machine Config.default 0 [0xAA#8, 0x00#8, 0x01#8] [(0, 0xFF#8), (1, 0xFF#8)])).map
    (fun t => (t.reg 0, t.reg 1, t.pc.toNat)) = some (0x01#8, 0xFF#8, 3) := by decide

/-- V15: MUL R2,R2 squares. -/
theorem test_mul_square : (nextOf (machine Config.default 0 [0xAA#8, 0x02#8, 0x02#8] [(2, 0x0F#8)])).map
    (fun t => t.reg 2) = some 0xE1#8 := by decide

/-- V12: 255 + 1 is 0 and E is not touched. -/
theorem test_add : (nextOf ((machine Config.default 0 [0xA8#8, 0x00#8, 0x01#8] [(0, 0xFF#8), (1, 0x01#8)]).setE true)).map
    (fun t => (t.reg 0, t.e, t.pc.toNat)) = some (0x00#8, true, 3) := by decide

/-- V17: ADD R0,R9 is illegal by its operand B. -/
theorem test_add_illegal : (nextOf (machine Config.default 0 [0xA8#8, 0x00#8, 0x09#8] [(0, 0x01#8)])).map
    (fun t => (record t, t.reg 0, t.pc.toNat)) = some ((.halted, .illegalInstruction, 9), 0x01#8, 0) := by decide

/-- V21 and V23: the decrement of SP wraps; with a small memory the wrapped address faults and SP is unchanged. -/
theorem test_push :
    (nextOf (machine Config.default 0 [0x4D#8, 0x00#8] [(0, 0x11#8)])).map (fun t => (t.sp, t.byteAt 255, t.pc.toNat)) =
      some (0xFF#8, 0x11#8, 2) ∧
    (nextOf (machine small 0 [0x4D#8, 0x00#8] [(0, 0x11#8)])).map (fun t => (record t, t.sp, t.pc.toNat)) =
      some ((.halted, .memoryFault, 255), 0x00#8, 0) := by decide

/-- V22: PUSH R7 pushes the new SP. -/
theorem test_push_sp : (nextOf (machine Config.default 0 [0x4D#8, 0x07#8] [(7, 0xF0#8)])).map (fun t => (t.sp, t.byteAt 0xEF)) =
    some (0xEF#8, 0xEF#8) := by decide

/-- V25: the increment of SP wraps, and the popped byte stays in memory. -/
theorem test_pop : (nextOf ((machine Config.default 0 [0x4C#8, 0x01#8] [(7, 0xFF#8)]).load 255 0x5A#8)).map
    (fun t => (t.reg 1, t.sp, t.byteAt 255, t.pc.toNat)) = some (0x5A#8, 0x00#8, 0x5A#8, 2) := by decide

/-- V26: POP R7 loads SP and then increments it. -/
theorem test_pop_sp : (nextOf ((machine Config.default 0 [0x4C#8, 0x07#8] [(7, 0xEF#8)]).load 0xEF 0x20#8)).map (fun t => t.sp) =
    some 0x21#8 := by decide

/-- V31: a CALL at FE stores the low eight bits of 0x100. -/
theorem test_call : (nextOf (machine Config.default 0xFE [0x48#8, 0x01#8] [(7, 0x80#8), (1, 0x10#8)])).map
    (fun t => (t.sp, t.byteAt 0x7F, t.pc.toNat)) = some (0x7F#8, 0x00#8, 0x10) := by decide

/-- V32: CALL R7 jumps to the new SP. -/
theorem test_call_sp : (nextOf (machine Config.default 0 [0x48#8, 0x07#8] [(7, 0x50#8)])).map
    (fun t => (t.sp, t.byteAt 0x4F, t.pc.toNat)) = some (0x4F#8, 0x02#8, 0x4F) := by decide

/-- V34: RET. -/
theorem test_ret : (nextOf ((machine Config.default 0x11 [0x09#8] [(7, 0xEF#8)]).load 0xEF 0x0B#8)).map
    (fun t => (t.pc.toNat, t.sp)) = some (0x0B, 0xF0#8) := by decide

/-- V35: RET with SP outside memory changes neither PC nor SP. -/
theorem test_ret_fault : (nextOf (machine small 0 [0x09#8] [(7, 0x10#8)])).map (fun t => (record t, t.pc.toNat, t.sp)) =
    some ((.halted, .memoryFault, 16), 0, 0x10#8) := by decide

/-- V40 and V41: CMP sets E and clears E. -/
theorem test_cmp :
    (nextOf (machine Config.default 0 [0xA0#8, 0x00#8, 0x01#8] [(0, 5#8), (1, 5#8)])).map (fun t => (t.e, t.pc.toNat)) =
      some (true, 3) ∧
    (nextOf ((machine Config.default 0 [0xA0#8, 0x00#8, 0x01#8] [(0, 5#8), (1, 6#8)]).setE true)).map (fun t => (t.e, t.pc.toNat)) =
      some (false, 3) := by decide

/-- V44: a jump to its own address does not advance. -/
theorem test_jmp : (nextOf (machine Config.default 5 [0x50#8, 0x00#8] [(0, 5#8)])).map (fun t => (t.pc.toNat, t.status)) =
    some (5, .continues) := by decide

/-- V45 and V46: JEQ taken and not taken. -/
theorem test_jeq :
    (nextOf ((machine Config.default 0 [0x51#8, 0x02#8] [(2, 0x30#8)]).setE true)).map (fun t => t.pc.toNat) = some 0x30 ∧
    (nextOf (machine Config.default 0 [0x51#8, 0x02#8] [(2, 0x30#8)])).map (fun t => t.pc.toNat) = some 2 := by decide

/-- V50: the register of a JEQ that would not be taken is checked. -/
theorem test_jeq_illegal : (nextOf (machine Config.default 0 [0x51#8, 0x09#8] [])).map record =
    some (.halted, .illegalInstruction, 9) := by decide

/-- V47 and V48: JNE taken and not taken. -/
theorem test_jne :
    (nextOf (machine Config.default 0 [0x52#8, 0x02#8] [(2, 0x30#8)])).map (fun t => t.pc.toNat) = some 0x30 ∧
    (nextOf ((machine Config.default 0 [0x52#8, 0x02#8] [(2, 0x30#8)]).setE true)).map (fun t => t.pc.toNat) = some 2 := by decide

/-! ## The step and the host -/

/-- V60: an unrecognised opcode. V68: at the last byte, with and without STRICT_READAHEAD. -/
theorem test_unrecognised :
    (nextOf (machine Config.default 0 [0xFF#8] [(0, 1#8)])).map (fun t => (record t, t.pc.toNat, t.reg 0, t.status)) =
      some ((.halted, .illegalInstruction, 255), 0, 1#8, .halted) ∧
    (nextOf (machine small 15 [0xFF#8] [])).map record = some (.halted, .illegalInstruction, 255) ∧
    (nextOf (machine strict 15 [0xFF#8] [])).map record = some (.halted, .memoryFault, 16) := by decide

/-- V64, second step: fetch past the end of memory. V72: a consumed operand past the end. -/
theorem test_fetch_outside :
    (nextOf (machine Config.default 256 [] [])).map (fun t => (record t, t.pc.toNat)) = some ((.halted, .memoryFault, 256), 256) ∧
    (nextOf (machine small 15 [0x43#8] [])).map record = some (.halted, .memoryFault, 16) := by decide

/-- V69: a step in Halted is a no-op. -/
theorem test_halted_step :
    (nextOf ((machine Config.default 1 [0x99#8, 0x00#8, 0x05#8] []).haltedWith .hlt 0)).map (fun t => (record t, t.reg 0, t.pc.toNat)) =
      some ((.halted, .hlt, 0), 0#8, 1) := by decide

/-- V28, first step: a push over the next instruction; the pushed byte is what the next fetch reads. -/
theorem test_push_into_code : (nextOf (machine Config.default 0 [0x4D#8, 0x00#8, 0x00#8] [(7, 3#8), (0, 1#8)])).map
    (fun t => (t.pc.toNat, match t.fetch with | .ok i => some i | .error _ => none)) = some (2, some .hlt) := by decide

/-- A machine of more than 256 bytes is refused by name (U10). -/
theorem test_refused : nextOf (machine { Config.default with memSize := 300 } 0 [0x01#8] []) = none := by decide

/-- From reset with nothing loaded the first step finds `0x00`, no instruction (V61, R91). -/
theorem test_reset_step : (nextOf State.reset).map record = some (.halted, .illegalInstruction, 0) := by decide

/-- The host's placing of an instruction: the first step after reset runs it. -/
theorem test_withFetchWord : (nextOf (State.reset.withFetchWord 24 0x080399)).map (fun t => (t.reg 3, t.pc.toNat)) =
    some (8#8, 3) := by decide

/-- R237: a load in range and out of range. -/
theorem test_load : ((State.construct small).load 15 0xAB#8).byteAt 15 = 0xAB#8 ∧
    (State.construct small).load 16 0xAB#8 = State.construct small := by decide

/-- S5, R238: the source's image text, with a comment, a blank line and a malformed line skipped. -/
theorem test_image : parseImage ["10011001 # LDI R0,8".toList, "00000000".toList, " 00001000".toList, "".toList,
    "# print".toList, "01000011".toList, "0000000x".toList, "00000000".toList, "00000001".toList] =
    [0x99#8, 0x00#8, 0x08#8, 0x43#8, 0x00#8, 0x01#8] := by decide

/-- The invariant at reset, also of a small strict machine. -/
theorem test_inv_construct : (State.construct strict).Inv :=
  ⟨by decide, by decide, by decide, by decide, by decide, by decide, by decide, by decide, by decide⟩

/-! ## Witnesses: for every statement with hypotheses, a state and operands that meet all of them -/

/-- A state whose fetch cannot fault, from the four facts. -/
theorem canFetch_of {s : State} (h : (s.run = .running ∧ s.cfg.wf = true) ∧ s.pc.toNat < s.cfg.memSize ∧
    (s.cfg.strictReadAhead = true → s.pc.toNat + 2 < s.cfg.memSize)) : s.CanFetch :=
  ⟨h.1.1, h.1.2, h.2.1, h.2.2⟩

/-- SourceImageDecodes, OpcodeBytesConstrained, DecodeExactlyEncodings, EncodingsAreWellFormedWords, ResetIsSound. -/
theorem witness_legal_parameters : Config.default.wf = true ∧ small.wf = true ∧ strict.wf = true ∧
    ({ Config.default with memSize := 1 }).wf = true := by decide

/-- OpcodeBytesConstrained, clause c: a row that is none of the source's three. -/
theorem witness_OpcodeBytesConstrained : Mnemonic.mul ≠ .hlt ∧ Mnemonic.mul ≠ .ldi ∧ Mnemonic.mul ≠ .prn := by decide

/-- CanFetch at its edges: the last byte of memory, and N - 3 under STRICT_READAHEAD. -/
theorem witness_canFetch : (machine small 15 [0x01#8] []).CanFetch ∧ (machine strict 13 [0x01#8] []).CanFetch :=
  ⟨canFetch_of (by decide), canFetch_of (by decide)⟩

/-- StepRunsDecodedInstruction: HLT in the last byte, PRN ending at the last byte, ADD inside a strict machine. -/
theorem witness_StepRunsDecodedInstruction :
    (machine small 15 [0x01#8] []).CanFetch ∧ encode small .hlt <+: (machine small 15 [0x01#8] []).codeBytes ∧
    (machine small 14 [0x43#8, 0x01#8] []).CanFetch ∧
      encode small (.prn 1) <+: (machine small 14 [0x43#8, 0x01#8] []).codeBytes ∧
    (machine strict 13 [0xA8#8, 0x07#8, 0x00#8] []).CanFetch ∧
      encode strict (.add 7 0) <+: (machine strict 13 [0xA8#8, 0x07#8, 0x00#8] []).codeBytes :=
  ⟨canFetch_of (by decide), by decide, canFetch_of (by decide), by decide, canFetch_of (by decide), by decide⟩

/-- FetchFaults (HltRule, RetRule, FaultOrder): pc = N; strict with A outside; strict with B outside. -/
theorem witness_FetchFaults :
    (small.memSize ≤ (machine small 16 [] []).pc.toNat ∧ (machine small 16 [] []).run = .running) ∧
    ((machine strict 15 [] []).pc.toNat < strict.memSize ∧ strict.memSize ≤ (machine strict 15 [] []).pc.toNat + 1) ∧
    ((machine strict 14 [] []).pc.toNat + 1 < strict.memSize ∧ strict.memSize ≤ (machine strict 14 [] []).pc.toNat + 2) := by
  decide

/-- OpcodeFault (FaultOrder, IllegalInstructionEffect): a byte of no row, in the last byte of memory. -/
theorem witness_OpcodeFault : (machine small 15 [0xFF#8] []).CanFetch ∧
    ∀ m ∈ Mnemonic.all, small.opcode m ≠ (machine small 15 [0xFF#8] []).byteAt 15 :=
  ⟨canFetch_of (by decide), by decide⟩

/-- OperandFaults, clause 1 (every rule with an operand): the opcode byte in the last byte of memory, each row. -/
theorem witness_operandA_missing : ∀ m ∈ Mnemonic.all, 1 ≤ m.count →
    (machine small 15 [small.opcode m] []).byteAt 15 = small.opcode m ∧ small.memSize ≤ 15 + 1 := by decide

/-- OperandFaults, clause 2 (LDI, MUL, ADD, CMP): operand A in the last byte of memory, B outside. -/
theorem witness_operandB_missing : ∀ m ∈ Mnemonic.all, m.count = 2 →
    (machine small 14 [small.opcode m, 0#8] []).byteAt 14 = small.opcode m ∧ 14 + 1 < small.memSize ∧ small.memSize ≤ 14 + 2 := by
  decide

/-- OperandFaults, clause 3 and RegisterOperandsChecked, clause 1: operand A is 8, each row with an operand. -/
theorem witness_operandA_illegal : ∀ m ∈ Mnemonic.all, 1 ≤ m.count →
    (machine small 13 [small.opcode m, 8#8, 0#8] []).byteAt 13 = small.opcode m ∧ 13 + m.count < small.memSize ∧
    8 ≤ ((machine small 13 [small.opcode m, 8#8, 0#8] []).byteAt 14).toNat := by decide

/-- OperandFaults, clause 4 and RegisterOperandsChecked, clause 2: operand A is 7, operand B is 8. -/
theorem witness_operandB_illegal : ∀ m ∈ Mnemonic.all, m.kinds = [.reg, .reg] →
    (machine small 13 [small.opcode m, 7#8, 8#8] []).byteAt 13 = small.opcode m ∧ 13 + 2 < small.memSize ∧
    ((machine small 13 [small.opcode m, 7#8, 8#8] []).byteAt 14).toNat < 8 ∧
    8 ≤ ((machine small 13 [small.opcode m, 7#8, 8#8] []).byteAt 15).toNat := by decide

/-- The states of the four operand witnesses meet CanFetch, whatever the row. -/
theorem witness_operand_states : ∀ m : Mnemonic,
    (machine small 15 [small.opcode m] []).CanFetch ∧ (machine small 14 [small.opcode m, 0#8] []).CanFetch ∧
    (machine small 13 [small.opcode m, 8#8, 0#8] []).CanFetch ∧ (machine small 13 [small.opcode m, 7#8, 8#8] []).CanFetch := by
  intro m
  cases m <;> exact ⟨canFetch_of (by decide), canFetch_of (by decide), canFetch_of (by decide), canFetch_of (by decide)⟩

/-- RegisterOperandsChecked, clause 3: LDI with a legal register and an immediate above 7. -/
theorem witness_ldi_immediate : (machine small 13 [0x99#8, 7#8, 0xFF#8] []).CanFetch ∧
    ((machine small 13 [0x99#8, 7#8, 0xFF#8] []).byteAt 14).toNat < 8 ∧
    (machine small 13 [0x99#8, 7#8, 0xFF#8] []).byteAt 13 = 0x99#8 ∧ 13 + 2 < small.memSize :=
  ⟨canFetch_of (by decide), by decide⟩

/-- StackFaults, PushRule and CallRule (fault clauses): SP - 1 = N. PopRule and RetRule (fault clauses): SP = N. -/
theorem witness_StackFaults :
    (machine small 0 [0x4D#8, 0x00#8] [(7, 17#8)]).CanFetch ∧
    encode small (.push 0) <+: (machine small 0 [0x4D#8, 0x00#8] [(7, 17#8)]).codeBytes ∧
    small.memSize ≤ ((machine small 0 [0x4D#8, 0x00#8] [(7, 17#8)]).sp - 1#8).toNat ∧
    (machine small 0 [0x09#8] [(7, 16#8)]).CanFetch ∧
    encode small .ret <+: (machine small 0 [0x09#8] [(7, 16#8)]).codeBytes ∧
    small.memSize ≤ (machine small 0 [0x09#8] [(7, 16#8)]).sp.toNat :=
  ⟨canFetch_of (by decide), by decide, by decide, canFetch_of (by decide), by decide, by decide⟩

/-- PushRule, CallRule, PushThenPop, CallThenRet (completion clauses), at the edges SP = 0 and SP = 16 of sixteen bytes. -/
theorem witness_push_completes :
    (machine Config.default 0xFD [0x48#8, 0x00#8] []).mem.wf = true ∧ (machine Config.default 0xFD [0x48#8, 0x00#8] []).pc.toNat ≤ 253 ∧
    ((machine Config.default 0xFD [0x48#8, 0x00#8] []).sp - 1#8).toNat < Config.default.memSize ∧
    (machine small 0 [] [(7, 16#8)]).pc.toNat < 256 ∧ ((machine small 0 [] [(7, 16#8)]).sp - 1#8).toNat < small.memSize := by decide

/-- PopRule and RetRule (completion clauses), at SP = 15 of sixteen bytes and SP = 255. -/
theorem witness_pop_completes :
    (machine small 0 [] [(7, 15#8)]).sp.toNat < small.memSize ∧ (machine small 0 [] []).pc.toNat < 256 ∧
    (machine Config.default 255 [] [(7, 255#8)]).sp.toNat < Config.default.memSize ∧
    (machine Config.default 255 [] [(7, 255#8)]).pc.toNat < 256 := by decide

/-- CallThenRet, the state the RET runs in: the state right after the CALL itself. -/
theorem witness_CallThenRet :
    (nextOf (machine Config.default 0xFD [0x48#8, 0x00#8] [])).map (fun t => (t.sp, t.byteAt t.sp.toNat, t.cfg)) =
      some (0xFF#8, 0xFF#8, Config.default) := by decide

/-- LdiRule, PrnRule, MulRule, AddRule, CmpRule, JeqRule, JneRule, HltRule: `pc` at 0 and at 255; E both ways. -/
theorem witness_pc_below_256 :
    State.reset.pc.toNat < 256 ∧ (machine Config.default 255 [] []).pc.toNat < 256 ∧ State.reset.e = false ∧
    (State.reset.setE true).e = true ∧ (machine Config.default 252 [] []).pc.toNat + 3 < 256 := by decide

/-- StepExecutesOrFaultsOnce, HaltedIsTerminal, StatusOfStep: a Halted state and a Running one. -/
theorem witness_run_states : (State.reset.haltedWith .hlt 0).run = .halted ∧ State.reset.run = .running ∧
    nextOf (State.reset.haltedWith .hlt 0) = some (State.reset.haltedWith .hlt 0) ∧
    (nextOf (machine Config.default 0 [0x99#8, 0#8, 1#8] [])).map (fun t => t.run) = some .running := by decide

/-- NewPcTable, clause 1: a Running state in which exec answers a state that is not a faulted one. -/
theorem witness_NewPcTable : State.reset.run = .running ∧ State.reset.pc.toNat < 256 ∧
    (match exec (.call 7) State.reset with
      | .next t => !t.faultEnd
      | .fault _ => false
      | .refused _ => false) = true := by decide

/-- StepAlwaysAnswers, clause 3: a step that is refused. -/
theorem witness_StepAlwaysAnswers :
    (match step (State.construct { Config.default with memSize := 257 }) with
      | .refused r => decide (r = .configOutsideSpec)
      | .fault _ => false
      | .next _ => false) = true := by decide

/-- FaultsArePrecise, HaltRecordUnread, NewPcTable and EqualityFlagRule (fault clauses): a Running state whose step halts, by
HLT and by a fault. -/
theorem witness_halting_steps :
    (nextOf (machine Config.default 0 [0x01#8] [])).map (fun t => (t.run, t.cleanEnd, t.faultEnd)) = some (.halted, true, false) ∧
    (nextOf State.reset).map (fun t => (t.run, t.cleanEnd, t.faultEnd)) = some (.halted, false, true) := by decide

/-- EqualityFlagRule, clause 2 and OutputOnlyGrows: a step of an instruction that is not CMP. -/
theorem witness_not_cmp : (machine Config.default 0 [0x43#8, 0#8] []).byteAt 0 ≠ Config.default.opcode .cmp ∧
    (nextOf (machine Config.default 0 [0x43#8, 0#8] [])).map (fun t => (t.run, t.e, t.out)) = some (.running, false, [0#8]) := by
  decide

/-- EqualityFlagRule, clause 4: an instruction that is neither JEQ nor JNE. -/
theorem witness_not_branch : (Instr.jmp 0).mnemonic ≠ .jeq ∧ (Instr.jmp 0).mnemonic ≠ .jne := by decide

/-- MemoryAsData: a push that changes a byte, at SP - 1 = N - 1; two memories that agree at the stack pointer; another
canonical memory that already lists the byte stored to; an instruction that does not store. -/
theorem witness_MemoryAsData :
    (nextOf (machine small 0 [0x4D#8, 0x00#8] [(7, 16#8), (0, 5#8)])).map (fun t => t.byteAt 15) = some 5#8 ∧
    (machine small 0 [0x4D#8, 0x00#8] [(7, 16#8), (0, 5#8)]).byteAt 15 = 0#8 ∧
    Memory.get [(3, 1#8)] 15 = (machine small 0 [0x4C#8, 0x00#8] [(7, 15#8)]).byteAt 15 ∧
    Memory.wf [(3, 1#8), (15, 9#8)] = true ∧ (machine small 0 [0x4D#8, 0x00#8] [(7, 16#8), (0, 5#8)]).mem.wf = true ∧
    ((machine small 0 [0x4D#8, 0x00#8] [(7, 16#8), (0, 5#8)]).sp - 1#8).toNat < small.memSize ∧
    (Instr.hlt.mnemonic ≠ .push ∧ Instr.hlt.mnemonic ≠ .call) := by decide

/-- MemoryFaultEffect: the largest address that faults. MemReadRule, MemWriteRule, HostLoad: the edges of sixteen bytes. -/
theorem witness_edges : (258 : Nat) ≤ 258 ∧ 15 < small.memSize ∧ small.memSize ≤ 16 ∧ (State.construct small).mem.wf = true := by
  decide

/-- BootInstallsImage: an image that fills memory. -/
theorem witness_BootInstallsImage : ({ Config.default with memSize := 2 }).wf = true ∧
    [0x43#8, 0x00#8].length ≤ ({ Config.default with memSize := 2 } : Config).memSize := by decide

/-- StepKeepsInv, LoadKeepsInv, RunsNeverStop: a sound state whose step answers a next state. -/
theorem witness_StepKeepsInv : State.reset.Inv ∧ (nextOf State.reset).isSome = true :=
  ⟨⟨by decide, by decide, by decide, by decide, by decide, by decide, by decide, by decide, by decide⟩, by decide⟩

/-- ParametersFixed: a step that answers a next state in a machine with parameters of its own. -/
theorem witness_ParametersFixed : (nextOf (machine strict 0 [0x01#8] [])).map (fun t => t.cfg) = some strict := by decide

/-- CompareThenBranch: `pc` at its edge, and both cases of the comparison. -/
theorem witness_CompareThenBranch : (machine Config.default 252 [] [(0, 1#8)]).pc.toNat + 3 < 256 ∧
    (machine Config.default 252 [] [(0, 1#8)]).reg 0 ≠ (machine Config.default 252 [] [(0, 1#8)]).reg 1 ∧
    (machine Config.default 252 [] [(0, 1#8)]).reg 1 = (machine Config.default 252 [] [(0, 1#8)]).reg 2 := by decide

/-- PushedByteIsFetched: PUSH R0 at 0 with SP = 3, whose byte lands at the next instruction, and over its own opcode byte. -/
theorem witness_PushedByteIsFetched :
    (machine small 0 [0x4D#8, 0x00#8] [(7, 3#8)]).CanFetch ∧ (machine small 0 [0x4D#8, 0x00#8] [(7, 3#8)]).mem.wf = true ∧
    encode small (.push 0) <+: (machine small 0 [0x4D#8, 0x00#8] [(7, 3#8)]).codeBytes ∧
    ((machine small 0 [0x4D#8, 0x00#8] [(7, 3#8)]).sp - 1#8).toNat < small.memSize ∧
    ((machine small 0 [0x4D#8, 0x00#8] [(7, 3#8)]).sp - 1#8).toNat = (machine small 0 [0x4D#8, 0x00#8] [(7, 3#8)]).pc.toNat + 2 ∧
    ((machine small 0 [0x4D#8, 0x00#8] [(7, 1#8)]).sp - 1#8).toNat = (machine small 0 [0x4D#8, 0x00#8] [(7, 1#8)]).pc.toNat :=
  ⟨canFetch_of (by decide), by decide, by decide, by decide, by decide, by decide⟩

end Sys2Proof.Tests
end

section
/-! SUPPORT. What the decoder answers, in one direction: an instruction whose encoding opens the bytes (R94). -/

namespace Sys2Proof

/-- Format F1 answers only where operand A is the byte of a register (R82, R84). -/
theorem operandsF1_ok {mk : Reg → Instr} {ops : List Byte} {i : Instr} (h : operandsF1 mk ops = .ok i) :
    ∃ r rest, i = mk r ∧ ops = byteOfReg r :: rest := by
  match ops with
  | [] => cases h
  | a :: rest =>
    cases ha : regOfByte a with
    | error e => simp [operandsF1, ha] at h
    | ok r =>
      simp only [operandsF1, ha, Except.ok.injEq] at h
      exact ⟨r, rest, h.symm, by rw [byteOfReg_of_regOfByte ha]⟩

/-- Format F2 with two registers answers only where both operands are bytes of registers (R82, R84). -/
theorem operandsF2Regs_ok {mk : Reg → Reg → Instr} {ops : List Byte} {i : Instr}
    (h : operandsF2Regs mk ops = .ok i) :
    ∃ r q rest, i = mk r q ∧ ops = byteOfReg r :: byteOfReg q :: rest := by
  match ops with
  | [] | [_] => cases h
  | a :: b :: rest =>
    cases ha : regOfByte a with
    | error e => simp [operandsF2Regs, ha] at h
    | ok r =>
      cases hb : regOfByte b with
      | error e => simp [operandsF2Regs, ha, hb] at h
      | ok q =>
        simp only [operandsF2Regs, ha, hb, Except.ok.injEq] at h
        exact ⟨r, q, rest, h.symm, by rw [byteOfReg_of_regOfByte ha, byteOfReg_of_regOfByte hb]⟩

/-- Format F2 with an immediate answers only where operand A is the byte of a register (R82, R84, R90). -/
theorem operandsF2Imm_ok {mk : Reg → Byte → Instr} {ops : List Byte} {i : Instr}
    (h : operandsF2Imm mk ops = .ok i) :
    ∃ r b rest, i = mk r b ∧ ops = byteOfReg r :: b :: rest := by
  match ops with
  | [] | [_] => cases h
  | a :: b :: rest =>
    cases ha : regOfByte a with
    | error e => simp [operandsF2Imm, ha] at h
    | ok r =>
      simp only [operandsF2Imm, ha, Except.ok.injEq] at h
      exact ⟨r, b, rest, h.symm, by rw [byteOfReg_of_regOfByte ha]⟩

/-- What a row's operands are read as is an instruction of that row whose operand bytes stand there (R82, R86). -/
theorem decodeOperands_ok {m : Mnemonic} {ops : List Byte} {i : Instr} (h : decodeOperands m ops = .ok i) :
    i.mnemonic = m ∧ i.operandBytes <+: ops := by
  cases m
  case hlt | ret =>
    cases h
    exact ⟨rfl, List.nil_prefix⟩
  case ldi =>
    obtain ⟨r, b, rest, rfl, rfl⟩ := operandsF2Imm_ok h
    exact ⟨rfl, rest, rfl⟩
  case mul | add | cmp =>
    obtain ⟨r, q, rest, rfl, rfl⟩ := operandsF2Regs_ok h
    exact ⟨rfl, rest, rfl⟩
  case prn | push | pop | call | jmp | jeq | jne =>
    obtain ⟨r, rest, rfl, rfl⟩ := operandsF1_ok h
    exact ⟨rfl, rest, rfl⟩

/-- The bytes an instruction is decoded from begin with its encoding. -/
theorem encode_prefix_of_decode {c : Config} {bs : List Byte} {i : Instr} (h : decode c bs = .ok i) :
    encode c i <+: bs := by
  cases bs with
  | nil => cases h
  | cons ir ops =>
    cases hm : c.mnemonicOf ir with
    | none => simp [decode, hm] at h
    | some m =>
      obtain ⟨hi, hops⟩ := decodeOperands_ok (by simpa only [decode, hm] using h)
      rw [encode, hi, Config.opcode_of_mnemonicOf hm]
      exact List.cons_prefix_cons.2 ⟨rfl, hops⟩

end Sys2Proof
end

section
/-! SUPPORT. What a fetch reads, and which instruction it answers. -/

namespace Sys2Proof.Machine

/-- Fetch and decode read the parameters, `pc` and memory, and nothing else of the state (R111 to R114). -/
theorem State.fetch_congr {s t : State} (hcfg : t.cfg = s.cfg) (hpc : t.pc = s.pc) (hmem : t.mem = s.mem) :
    t.fetch = s.fetch := by
  cases s
  cases t
  cases hcfg
  cases hpc
  cases hmem
  rfl

/-- A fetched instruction's encoding stands in memory from `pc` (R114). -/
theorem State.encode_prefix_of_fetch {s : State} (hc : s.CanFetch) {i : Instr} (h : s.fetch = .ok i) :
    encode s.cfg i <+: s.codeBytes := by
  rw [State.fetch, State.fetchBytes_of_canFetch hc] at h
  cases hd : decode s.cfg s.codeBytes with
  | error e => simp [hd] at h
  | ok j =>
    simp only [hd, Except.ok.injEq] at h
    exact h ▸ encode_prefix_of_decode hd

/-- The first byte an instruction is read from is the one at `pc`. -/
theorem State.codeBytes_eq_cons {s : State} (h : s.pc.toNat < s.cfg.memSize) :
    ∃ rest, s.codeBytes = s.byteAt s.pc.toNat :: rest :=
  ⟨_, by rw [State.codeBytes, List.filter_cons_of_pos (by simpa using h), List.map_cons]⟩

/-- Where an instruction's encoding stands, the byte at `pc` is its opcode byte. -/
theorem State.byteAt_pc_of_encode_prefix {s : State} (hc : s.CanFetch) {i : Instr}
    (h : encode s.cfg i <+: s.codeBytes) : s.byteAt s.pc.toNat = s.cfg.opcode i.mnemonic := by
  obtain ⟨rest, hb⟩ := State.codeBytes_eq_cons hc.opcodeInside
  rw [hb, encode] at h
  exact (List.cons_prefix_cons.1 h).1.symm

/-- The byte at `pc` is the opcode byte of the fetched instruction (R111, R114). -/
theorem State.byteAt_pc_of_fetch {s : State} (hc : s.CanFetch) {i : Instr} (h : s.fetch = .ok i) :
    s.byteAt s.pc.toNat = s.cfg.opcode i.mnemonic :=
  State.byteAt_pc_of_encode_prefix hc (State.encode_prefix_of_fetch hc h)

end Sys2Proof.Machine
end

section
/-! SUPPORT. The execute phases with more than one way to end, each said once: the two branches, and the four stack
instructions inside and outside memory. -/

namespace Sys2Proof.Machine

/-- JEQ answers one of two program counters and changes nothing else (R182). -/
theorem exec_jeq (a : Reg) (s : State) :
    exec (.jeq a) s = .next (s.setPc (if s.e then s.target a else s.pc + 2#9)) := by
  rw [exec, execJeq]
  split <;> rfl

/-- JNE answers one of two program counters and changes nothing else (R183). -/
theorem exec_jne (a : Reg) (s : State) :
    exec (.jne a) s = .next (s.setPc (if s.e then s.pc + 2#9 else s.target a)) := by
  rw [exec, execJne]
  split <;> rfl

/-- `s` with SP decremented and a byte stored at it: the effect PUSH and CALL share (R160, R170). -/
def State.pushed (s : State) (v : Byte) : State :=
  { s.setReg Reg.sp (s.sp - 1#8) with mem := s.mem.set (s.sp - 1#8).toNat v }

/-- PUSH where SP - 1 exists (R160): `x[A]` is read after the decrement. -/
theorem exec_push_inside {s : State} (h : (s.sp - 1#8).toNat < s.cfg.memSize) (a : Reg) :
    exec (.push a) s = .next ((s.pushed ((s.setReg Reg.sp (s.sp - 1#8)).reg a)).advance 1) := by
  simp only [exec, execPush, State.spDown_inside h, State.storeTop_after_spDown h]
  rfl

/-- PUSH where SP - 1 does not exist (R160, R205). -/
theorem exec_push_outside {s : State} (h : s.cfg.memSize ≤ (s.sp - 1#8).toNat) (a : Reg) :
    exec (.push a) s = .next (s.haltedWith .memoryFault (s.sp - 1#8).toNat) := by
  simp only [exec, execPush, State.spDown_outside h]
  rfl

/-- POP where SP names a byte (R161): SP is read for the increment after `x[A]` was written. -/
theorem exec_pop_inside {s : State} (h : s.sp.toNat < s.cfg.memSize) (a : Reg) :
    exec (.pop a) s = .next ((s.setReg a (s.byteAt s.sp.toNat)).spUp.advance 1) := by
  simp only [exec, execPop, State.top_inside h]
  rfl

/-- POP where SP names no byte (R161, R205). -/
theorem exec_pop_outside {s : State} (h : s.cfg.memSize ≤ s.sp.toNat) (a : Reg) :
    exec (.pop a) s = .next (s.haltedWith .memoryFault s.sp.toNat) := by
  simp only [exec, execPop, State.top_outside h]
  rfl

/-- CALL where SP - 1 exists (R170): `x[A]` is read after the decrement. -/
theorem exec_call_inside {s : State} (h : (s.sp - 1#8).toNat < s.cfg.memSize) (a : Reg) :
    exec (.call a) s = .next ((s.pushed s.returnByte).setPc ((s.setReg Reg.sp (s.sp - 1#8)).target a)) := by
  simp only [exec, execCall, State.spDown_inside h, State.storeTop_after_spDown h]
  rfl

/-- CALL where SP - 1 does not exist (R170, R205). -/
theorem exec_call_outside {s : State} (h : s.cfg.memSize ≤ (s.sp - 1#8).toNat) (a : Reg) :
    exec (.call a) s = .next (s.haltedWith .memoryFault (s.sp - 1#8).toNat) := by
  simp only [exec, execCall, State.spDown_outside h]
  rfl

/-- RET where SP names a byte (R171). -/
theorem exec_ret_inside {s : State} (h : s.sp.toNat < s.cfg.memSize) :
    exec .ret s = .next ((s.setPc (zext9 (s.byteAt s.sp.toNat))).spUp) := by
  simp only [exec, execRet, State.top_inside h]
  rfl

/-- RET where SP names no byte (R171, R205). -/
theorem exec_ret_outside {s : State} (h : s.cfg.memSize ≤ s.sp.toNat) :
    exec .ret s = .next (s.haltedWith .memoryFault s.sp.toNat) := by
  simp only [exec, execRet, State.top_outside h]
  rfl

/-- A fault taken leaves the flag alone (R205). -/
@[simp] theorem State.raise_e (s : State) (f : Fault) : (s.raise f).e = s.e := by cases f <;> rfl

/-- A fault taken leaves the output channel alone (R205). -/
@[simp] theorem State.raise_out (s : State) (f : Fault) : (s.raise f).out = s.out := by cases f <;> rfl

end Sys2Proof.Machine
end

section
/-! SUPPORT. The flag and the output channel: which instructions touch them, and that fetch, faults and every other
instruction run the same beside any other flag and channel (R27, R34). -/

namespace Sys2Proof.Machine

/-- `s` with another flag and another output channel. -/
def State.withFlagOut (s : State) (b : Bool) (o : List Byte) : State := { s with e := b, out := o }

/-- `i` leaves the flag and the channel of `s` alone, and does the same beside any others. -/
def FlagOutFree (i : Instr) (s : State) : Prop :=
  ∃ t, exec i s = .next t ∧ t.e = s.e ∧ t.out = s.out ∧ ∀ b o, exec i (s.withFlagOut b o) = .next (t.withFlagOut b o)

/-- The stack fault is decided by SP and the memory size, which a change of flag and channel keeps: `FlagOutFree` from what
an instruction does inside and outside memory. -/
theorem FlagOutFree.stack {i : Instr} {s : State} {addr : State → Nat} {u : State → State}
    (inside : ∀ {s : State}, addr s < s.cfg.memSize → exec i s = .next (u s))
    (outside : ∀ {s : State}, s.cfg.memSize ≤ addr s → exec i s = .next (s.haltedWith .memoryFault (addr s)))
    (haddr : ∀ b o, addr (s.withFlagOut b o) = addr s) (he : (u s).e = s.e) (ho : (u s).out = s.out)
    (hu : ∀ b o, u (s.withFlagOut b o) = (u s).withFlagOut b o) : FlagOutFree i s := by
  rcases Nat.lt_or_ge (addr s) s.cfg.memSize with h | h
  · exact ⟨u s, inside h, he, ho, fun b o => hu b o ▸ inside ((haddr b o).trans_lt h)⟩
  · refine ⟨_, outside h, rfl, rfl, fun b o => ?_⟩
    rw [outside (s := s.withFlagOut b o) (h.trans_eq (haddr b o).symm), haddr b o]
    rfl

/-- Only PRN, CMP, JEQ and JNE have to do with the flag or the channel (R27, R34). -/
theorem exec_flagOut_cases (i : Instr) (s : State) :
    FlagOutFree i s ∨ (∃ a, i = .prn a) ∨ (∃ a b, i = .cmp a b) ∨ (∃ a, i = .jeq a) ∨ (∃ a, i = .jne a) := by
  cases i with
  | prn a => exact .inr (.inl ⟨a, rfl⟩)
  | cmp a b => exact .inr (.inr (.inl ⟨a, b, rfl⟩))
  | jeq a => exact .inr (.inr (.inr (.inl ⟨a, rfl⟩)))
  | jne a => exact .inr (.inr (.inr (.inr ⟨a, rfl⟩)))
  | hlt | ldi _ _ | mul _ _ | add _ _ | jmp _ => exact .inl ⟨_, rfl, rfl, rfl, fun _ _ => rfl⟩
  | push a =>
    exact .inl (.stack (exec_push_inside · a) (exec_push_outside · a) (fun _ _ => rfl) rfl rfl fun _ _ => rfl)
  | pop a =>
    exact .inl (.stack (exec_pop_inside · a) (exec_pop_outside · a) (fun _ _ => rfl) rfl rfl fun _ _ => rfl)
  | call a =>
    exact .inl (.stack (exec_call_inside · a) (exec_call_outside · a) (fun _ _ => rfl) rfl rfl fun _ _ => rfl)
  | ret => exact .inl (.stack exec_ret_inside exec_ret_outside (fun _ _ => rfl) rfl rfl fun _ _ => rfl)

/-! ### The flag -/

/-- Every instruction but CMP leaves the flag alone (R27). -/
theorem exec_keeps_e {i : Instr} {s t : State} (h : exec i s = .next t) : t.e = s.e ∨ ∃ a b, i = .cmp a b := by
  rcases exec_flagOut_cases i s with ⟨u, hu, he, -, -⟩ | ⟨a, rfl⟩ | ⟨a, b, rfl⟩ | ⟨a, rfl⟩ | ⟨a, rfl⟩
  · cases h.symm.trans hu
    exact .inl he
  · cases h
    exact .inl rfl
  · exact .inr ⟨a, b, rfl⟩
  · cases h.symm.trans (exec_jeq a s)
    exact .inl rfl
  · cases h.symm.trans (exec_jne a s)
    exact .inl rfl

/-- Every instruction but JEQ and JNE does the same from another flag (R27). -/
theorem exec_setE {i : Instr} {s t : State} (hjeq : i.mnemonic ≠ .jeq) (hjne : i.mnemonic ≠ .jne)
    (h : exec i s = .next t) (b : Bool) : ∃ b', exec i (s.setE b) = .next (t.setE b') := by
  rcases exec_flagOut_cases i s with ⟨u, hu, -, ho, hall⟩ | ⟨a, rfl⟩ | ⟨r, q, rfl⟩ | ⟨a, rfl⟩ | ⟨a, rfl⟩
  · cases h.symm.trans hu
    exact ⟨b, (hall b s.out).trans (by rw [← ho]; rfl)⟩
  · cases h
    exact ⟨b, rfl⟩
  · cases h
    exact ⟨equalFlag (s.reg r) (s.reg q), rfl⟩
  · exact absurd rfl hjeq
  · exact absurd rfl hjne

/-- A step leaves the flag alone, unless it ran a CMP, and that CMP's byte stands at `pc` and the machine runs on (R27, R205). -/
theorem step_keeps_e {s t : State} (h : step s = .next t) :
    t.e = s.e ∨ (s.byteAt s.pc.toNat = s.cfg.opcode .cmp ∧ t.run = s.run) := by
  rcases step_cases h with ⟨-, rfl⟩ | ⟨-, -, ⟨f, -, rfl⟩ | ⟨i, hc, hf, hx⟩⟩
  · exact .inl rfl
  · exact .inl (s.raise_e f)
  · rcases exec_keeps_e hx with he | ⟨a, b, rfl⟩
    · exact .inl he
    · cases hx
      exact .inr ⟨State.byteAt_pc_of_fetch hc hf, rfl⟩

theorem State.load_e (s : State) (k : Nat) (v : Byte) : (s.load k v).e = s.e := by
  rcases s.load_cases k v with ⟨-, h⟩ | ⟨-, h⟩ <;> rw [h]

/-! ### The output channel -/

/-- From `s`, the phase `f` answers `t` and appends `new` to the channel, whatever the channel holds (R34). -/
def Appends (f : State → Host.Outcome State Fault Refusal) (s t : State) (new : List Byte) : Prop :=
  t.out = s.out ++ new ∧ ∀ o, f { s with out := o } = .next { t with out := o ++ new }

/-- A phase that leaves every channel as it is appends nothing. -/
theorem Appends.nil {f : State → Host.Outcome State Fault Refusal} {s t : State} (ho : t.out = s.out)
    (h : ∀ o, f { s with out := o } = .next { t with out := o }) : Appends f s t [] :=
  ⟨by rw [ho, List.append_nil], fun o => by rw [List.append_nil, h o]⟩

/-- PRN alone appends, one byte, its register's (R34, R142). -/
theorem exec_appends {i : Instr} {s t : State} (h : exec i s = .next t) :
    Appends (exec i) s t [] ∨ ∃ a, i = .prn a ∧ Appends (exec i) s t [s.reg a] := by
  rcases exec_flagOut_cases i s with ⟨u, hu, he, ho, hall⟩ | ⟨a, rfl⟩ | ⟨a, b, rfl⟩ | ⟨a, rfl⟩ | ⟨a, rfl⟩
  · cases h.symm.trans hu
    exact .inl (.nil ho fun o => (hall s.e o).trans (he ▸ rfl))
  · cases h
    exact .inr ⟨a, rfl, rfl, fun _ => rfl⟩
  · cases h
    exact .inl (.nil rfl fun _ => rfl)
  · cases h.symm.trans (exec_jeq a s)
    exact .inl (.nil rfl fun _ => exec_jeq a _)
  · cases h.symm.trans (exec_jne a s)
    exact .inl (.nil rfl fun _ => exec_jne a _)

/-- A fault is taken the same beside any channel (R205). -/
theorem State.raise_with_out (s : State) (f : Fault) (o : List Byte) :
    State.raise { s with out := o } f = { s.raise f with out := o } := by
  cases f <;> rfl

/-- A step appends nothing, or one register's byte where PRN's byte stands at `pc` (R34). -/
theorem step_appends {s t : State} (h : step s = .next t) :
    Appends step s t [] ∨ (s.byteAt s.pc.toNat = s.cfg.opcode .prn ∧ ∃ a, Appends step s t [s.reg a]) := by
  rcases step_cases h with ⟨hr, rfl⟩ | ⟨hr, hc, hrest⟩
  · exact .inl (.nil rfl fun _ => step_halted hr)
  have hfetch (o : List Byte) : State.fetch { s with out := o } = s.fetch := State.fetch_congr rfl rfl rfl
  rcases hrest with ⟨f, hf, rfl⟩ | ⟨i, hcan, hf, hx⟩
  · refine .inl (.nil (s.raise_out f) fun o => ?_)
    rw [← State.raise_with_out]
    exact step_fetch_error (s := { s with out := o }) hr hc ((hfetch o).trans hf)
  · have hstep (o : List Byte) : step { s with out := o } = exec i { s with out := o } :=
      step_fetch_ok (s := { s with out := o }) hr hc ((hfetch o).trans hf)
    rcases exec_appends hx with ⟨ho, hall⟩ | ⟨a, rfl, ho, hall⟩
    · exact .inl ⟨ho, fun o => (hstep o).trans (hall o)⟩
    · exact .inr ⟨State.byteAt_pc_of_fetch hcan hf, a, ho, fun o => (hstep o).trans (hall o)⟩

end Sys2Proof.Machine
end

section
/-! PROOFS. The statements about the pieces of state: the run state (R29), the flag (R27), the output channel (R34). -/

namespace Sys2Proof.Machine

theorem State.load_run (s : State) (k : Nat) (v : Byte) : (s.load k v).run = s.run := by
  rcases s.load_cases k v with ⟨-, h⟩ | ⟨-, h⟩ <;> rw [h]

/-- A step that leaves the machine Running found it Running (R29). -/
theorem running_of_step_running {s t : State} (h : step s = .next t) (ht : t.run = .running) : s.run = .running := by
  rcases step_cases h with ⟨-, rfl⟩ | ⟨hr, -⟩
  · exact ht
  · exact hr

/-- A state that ended in a fault is Halted (R218). -/
theorem State.halted_of_faultEnd {s : State} (h : s.faultEnd = true) : s.run = .halted := by
  simp only [State.faultEnd, Bool.and_eq_true, beq_iff_eq] at h
  exact h.1

/-- Settles O8, from what a step and a load can do. -/
theorem haltedIsTerminal : Obligations.HaltedIsTerminal :=
  ⟨State.construct_run, fun _ => step_halted, fun _ _ => running_of_step_running, State.load_run⟩

/-- Settles O27: `step_keeps_e` for the writers of the flag, `exec_setE` for its readers. A faulting step cannot have run
CMP, which leaves the machine Running. -/
theorem equalityFlagRule : Obligations.EqualityFlagRule := by
  refine ⟨fun a b s t h => ?_, fun s t h hne => ?_, fun s t hr h hfault => ?_,
    fun i s t b hjeq hjne h => exec_setE hjeq hjne h b, State.load_e, State.construct_e⟩
  · cases h
    exact beq_iff_eq
  · exact (step_keeps_e h).resolve_right fun hcmp => hne hcmp.1
  · refine (step_keeps_e h).resolve_right fun ⟨_, hrun⟩ => ?_
    cases (State.halted_of_faultEnd hfault).symm.trans (hrun.trans hr)

/-- Settles O28, from `step_appends`: PRN's opcode byte is the source's in every machine. -/
theorem outputOnlyGrows : Obligations.OutputOnlyGrows := by
  refine ⟨State.construct_out, fun s t h => ?_⟩
  rcases step_appends h with ⟨ho, hall⟩ | ⟨hprn, a, ho, hall⟩
  · exact ⟨[], ho, .inl rfl, hall⟩
  · exact ⟨[s.reg a], ho, .inr ⟨hprn, a, rfl⟩, hall⟩

end Sys2Proof.Machine
end

section
/-! PROOFS. The statements about a memory access by an instruction: the read (R52) and the write (R53), each in range and
out of range. -/

namespace Sys2Proof.Machine

/-- Settles O19, by the two cases of a read. -/
theorem memReadRule : Obligations.MemReadRule :=
  fun _ _ => ⟨State.memRead_inside, State.memRead_outside⟩

/-- Settles O20, by the two cases of a write: in range the state answered is known, and what it reads as follows from the
laws of a write that answers. Only the byte read back needs the canonical form. -/
theorem memWriteRule : Obligations.MemWriteRule := by
  refine fun s k v hm => ⟨fun hk => ?_, fun hk => State.memWrite_outside hk v⟩
  have hw := State.memWrite_inside hk v
  exact ⟨_, hw, State.byteAt_memWrite_self hm hw, fun _ => State.byteAt_memWrite_ne hw, rfl⟩

end Sys2Proof.Machine
end

section
/-! SUPPORT. What the decoder answers, in the other direction: the instruction whose encoding opens the bytes (R94), and the
fault of a register operand of 8 to 255 (R85). -/

namespace Sys2Proof

/-- The operand bytes of an instruction, read by its own row, give the instruction back, whatever follows (R82, R83). -/
theorem decodeOperands_operandBytes (i : Instr) (rest : List Byte) :
    decodeOperands i.mnemonic (i.operandBytes ++ rest) = .ok i := by
  cases i
  case hlt | ret => rfl
  case ldi => simp [Instr.mnemonic, Instr.operandBytes, decodeOperands, operandsF2Imm]
  case mul | add | cmp => simp [Instr.mnemonic, Instr.operandBytes, decodeOperands, operandsF2Regs]
  case prn | push | pop | call | jmp | jeq | jne =>
    simp [Instr.mnemonic, Instr.operandBytes, decodeOperands, operandsF1]

/-- Bytes that begin with an instruction's encoding decode to it. -/
theorem decode_of_encode_prefix {c : Config} (hc : c.wf = true) {bs : List Byte} {i : Instr} (h : encode c i <+: bs) :
    decode c bs = .ok i := by
  obtain ⟨rest, rfl⟩ := h
  rw [encode, List.cons_append, decode_opcode hc, decodeOperands_operandBytes]

/-- The decoder undoes the encoder. -/
theorem decode_encode {c : Config} (hc : c.wf = true) (i : Instr) : decode c (encode c i) = .ok i :=
  decode_of_encode_prefix hc List.prefix_rfl

theorem operandsF1_illegal {a : Byte} (ha : 8 ≤ a.toNat) (mk : Reg → Instr) (rest : List Byte) :
    operandsF1 mk (a :: rest) = .error (.illegal a) := by
  rw [operandsF1, regOfByte_illegal ha]

theorem operandsF2Regs_illegalA {a : Byte} (ha : 8 ≤ a.toNat) (mk : Reg → Reg → Instr) (b : Byte) (rest : List Byte) :
    operandsF2Regs mk (a :: b :: rest) = .error (.illegal a) := by
  rw [operandsF2Regs, regOfByte_illegal ha]

theorem operandsF2Regs_illegalB {a b : Byte} (ha : a.toNat < 8) (hb : 8 ≤ b.toNat) (mk : Reg → Reg → Instr)
    (rest : List Byte) : operandsF2Regs mk (a :: b :: rest) = .error (.illegal b) := by
  rw [operandsF2Regs, regOfByte_legal ha, regOfByte_illegal hb]

theorem operandsF2Imm_illegalA {a : Byte} (ha : 8 ≤ a.toNat) (mk : Reg → Byte → Instr) (b : Byte) (rest : List Byte) :
    operandsF2Imm mk (a :: b :: rest) = .error (.illegal a) := by
  rw [operandsF2Imm, regOfByte_illegal ha]

/-- Operand A of 8 to 255 is the fault of every row that has an operand, once its operand bytes are all there: B is not
looked at (R85). -/
theorem decodeOperands_illegalA {m : Mnemonic} {a : Byte} {rest : List Byte} (hm : 1 ≤ m.count)
    (hrest : m.count ≤ rest.length + 1) (ha : 8 ≤ a.toNat) : decodeOperands m (a :: rest) = .error (.illegal a) := by
  cases m
  case hlt | ret => cases hm
  case prn | push | pop | call | jmp | jeq | jne => exact operandsF1_illegal ha _ rest
  case ldi =>
    obtain ⟨b, rest, rfl⟩ := List.exists_cons_of_length_pos (Nat.le_of_succ_le_succ hrest)
    exact operandsF2Imm_illegalA ha _ b rest
  case mul | add | cmp =>
    obtain ⟨b, rest, rfl⟩ := List.exists_cons_of_length_pos (Nat.le_of_succ_le_succ hrest)
    exact operandsF2Regs_illegalA ha _ b rest

/-- Operand B of 8 to 255 is the fault of a row with two register operands whose A is legal (R85). -/
theorem decodeOperands_illegalB {m : Mnemonic} {a b : Byte} (hm : m.kinds = [.reg, .reg]) (ha : a.toNat < 8)
    (hb : 8 ≤ b.toNat) (rest : List Byte) : decodeOperands m (a :: b :: rest) = .error (.illegal b) := by
  cases m
  case mul | add | cmp => exact operandsF2Regs_illegalB ha hb _ rest
  all_goals cases hm

end Sys2Proof
end

section
/-! SUPPORT. The step on the bytes that stand at `pc`: which instruction it runs, and how an illegal operand ends it. -/

namespace Sys2Proof.Machine

/-- Where operand slot A lies in memory, the bytes of an instruction are the opcode byte, operand A, and B if it is there. -/
theorem State.codeBytes_of_slotA {s : State} (h : s.pc.toNat + 1 < s.cfg.memSize) :
    s.codeBytes = s.byteAt s.pc.toNat :: s.byteAt (s.pc.toNat + 1) ::
      if s.pc.toNat + 2 < s.cfg.memSize then [s.byteAt (s.pc.toNat + 2)] else [] := by
  have h0 : s.pc.toNat < s.cfg.memSize := by omega
  by_cases h2 : s.pc.toNat + 2 < s.cfg.memSize <;> simp [State.codeBytes, h0, h, h2]

/-- Where operand slot B lies in memory, all three bytes are there. -/
theorem State.codeBytes_of_slotB {s : State} (h : s.pc.toNat + 2 < s.cfg.memSize) :
    s.codeBytes = [s.byteAt s.pc.toNat, s.byteAt (s.pc.toNat + 1), s.byteAt (s.pc.toNat + 2)] := by
  rw [State.codeBytes_of_slotA (by omega), if_pos h]

/-- Where the fetch cannot fault, the step runs the instruction whose encoding stands at `pc` (R114, R115, R120). -/
theorem step_of_encode_prefix {s : State} (hc : s.CanFetch) {i : Instr} (h : encode s.cfg i <+: s.codeBytes) :
    step s = exec i s :=
  step_fetch_ok hc.running hc.legal
    (by simp only [State.fetch, State.fetchBytes_of_canFetch hc, decode_of_encode_prefix hc.legal h])

/-- Where the fetch cannot fault, a decode error ends the step with its fault (R113, R204). -/
theorem step_of_decode_error {s : State} (hc : s.CanFetch) {e : DecodeError} (h : decode s.cfg s.codeBytes = .error e) :
    step s = .next (s.raise (s.decodeFault e)) :=
  step_fetch_error hc.running hc.legal (by simp only [State.fetch, State.fetchBytes_of_canFetch hc, h])

/-- An operand byte that the row at `pc` rejects halts with IllegalInstruction of that byte (R85, R204). -/
theorem step_of_operand_illegal {s : State} (hc : s.CanFetch) {m : Mnemonic} {ops : List Byte} {v : Byte}
    (hbytes : s.codeBytes = s.cfg.opcode m :: ops) (h : decodeOperands m ops = .error (.illegal v)) :
    step s = .next (s.haltedWith .illegalInstruction v.toNat) := by
  rw [step_of_decode_error hc (by rw [hbytes, decode_opcode hc.legal, h]), State.decodeFault,
    State.raise_illegalInstruction]

end Sys2Proof.Machine
end

section
/-! PROOFS. The statements about the encoding: the source's worked image (R87) and the check of register operands (R85). -/

namespace Sys2Proof.Machine

/-- Settles O1: each part of the image is the encoding of its instruction, since the source fixes the three opcode bytes
in every machine, and the decoder undoes the encoder. -/
theorem sourceImageDecodes : Obligations.SourceImageDecodes :=
  fun _ hc => ⟨decode_encode hc (.ldi 0 8#8), decode_encode hc (.prn 0), decode_encode hc .hlt, rfl⟩

/-- Operand A of 8 to 255 halts the step, for every row with an operand (R85). -/
theorem step_operandA_illegal {s : State} {m : Mnemonic} (hc : s.CanFetch) (hop : s.byteAt s.pc.toNat = s.cfg.opcode m)
    (hm : 1 ≤ m.count) (hin : s.pc.toNat + m.count < s.cfg.memSize) (ha : 8 ≤ (s.byteAt (s.pc.toNat + 1)).toNat) :
    step s = .next (s.haltedWith .illegalInstruction (s.byteAt (s.pc.toNat + 1)).toNat) := by
  have hbytes := State.codeBytes_of_slotA (s := s) (by omega)
  rw [hop] at hbytes
  refine step_of_operand_illegal hc hbytes (decodeOperands_illegalA hm ?_ ha)
  have hm2 : m.count ≤ 2 := by cases m <;> decide
  split
  · exact hm2
  · simp only [List.length_nil]
    omega

/-- Operand B of 8 to 255 halts the step of a row with two register operands, A being legal (R85). -/
theorem step_operandB_illegal {s : State} {m : Mnemonic} (hc : s.CanFetch) (hop : s.byteAt s.pc.toNat = s.cfg.opcode m)
    (hm : m.kinds = [.reg, .reg]) (hin : s.pc.toNat + 2 < s.cfg.memSize) (ha : (s.byteAt (s.pc.toNat + 1)).toNat < 8)
    (hb : 8 ≤ (s.byteAt (s.pc.toNat + 2)).toNat) :
    step s = .next (s.haltedWith .illegalInstruction (s.byteAt (s.pc.toNat + 2)).toNat) := by
  have hbytes := State.codeBytes_of_slotB hin
  rw [hop] at hbytes
  exact step_of_operand_illegal hc hbytes (decodeOperands_illegalB hm ha hb [])

/-- Settles O15: the two faults from the decoder's, and for LDI the three bytes at `pc` are the encoding of the
instruction with that immediate, every value. -/
theorem registerOperandsChecked : Obligations.RegisterOperandsChecked := by
  refine ⟨fun _ _ => step_operandA_illegal, fun _ _ => step_operandB_illegal, fun s h hc hop hin => ?_⟩
  apply step_of_encode_prefix hc
  rw [State.codeBytes_of_slotB hin, hop, encode, Instr.operandBytes, byteOfReg_of_regOfByte (regOfByte_legal h)]
  exact List.prefix_rfl

end Sys2Proof.Machine
end

section
/-! PROOFS. The statements about the step as a whole: what it does in Running and in Halted (R110), and the status it
returns (R118). -/

namespace Sys2Proof.Machine

/-- A fetch that answers an instruction is the fetch of a machine that `CanFetch` (R111, R112). -/
theorem State.canFetch_of_fetch {s : State} (hr : s.run = .running) (hc : s.cfg.wf = true) {i : Instr}
    (h : s.fetch = .ok i) : s.CanFetch := by
  cases hb : s.fetchBytes with
  | error f => simp [State.fetch, hb] at h
  | ok bs => exact State.canFetch_of_fetchBytes hr hc hb

/-- A fault taken is a halt with one of the two fault causes (R201, R203, R204). -/
theorem State.raise_eq_haltedWith (s : State) (f : Fault) :
    ∃ c n, (c = .illegalInstruction ∨ c = .memoryFault) ∧ s.raise f = s.haltedWith c n := by
  rcases s.raise_cases f with ⟨a, -, h⟩ | ⟨v, -, h⟩
  · exact ⟨_, _, .inr rfl, h⟩
  · exact ⟨_, _, .inl rfl, h⟩

/-- A fault taken leaves the machine Halted (R203, R204). -/
@[simp] theorem State.raise_run (s : State) (f : Fault) : (s.raise f).run = .halted := by cases f <;> rfl

theorem State.status_eq_halted_iff {s : State} : s.status = .halted ↔ s.run = .halted := by
  cases h : s.run <;> simp [State.status, h]

theorem State.status_eq_continues_iff {s : State} : s.status = .continues ↔ s.run = .running := by
  cases h : s.run <;> simp [State.status, h]

/-- Settles O7: in a Running machine the fetch decides. An instruction it answers stands encoded at `pc` and is what the
step executes; a fault it raises is what the step takes. -/
theorem stepExecutesOrFaultsOnce : Obligations.StepExecutesOrFaultsOnce := by
  refine fun s => ⟨fun hr => ⟨step_halted hr, State.status_eq_halted_iff.2 hr⟩, fun hr hc => ?_⟩
  cases hf : s.fetch with
  | ok i =>
    exact .inl ⟨i, State.encode_prefix_of_fetch (State.canFetch_of_fetch hr hc hf) hf, step_fetch_ok hr hc hf⟩
  | error f =>
    obtain ⟨c, n, hcause, h⟩ := s.raise_eq_haltedWith f
    exact .inr ⟨c, n, hcause, h ▸ step_fetch_error hr hc hf⟩

/-- Settles O12: the status is read off the run state, and HLT, a fault taken and a step in Halted each leave Halted. -/
theorem statusOfStep : Obligations.StatusOfStep := by
  refine ⟨fun _ _ _ => ⟨State.status_eq_halted_iff, State.status_eq_continues_iff⟩, fun s t h => ?_,
    fun s f => State.status_eq_halted_iff.2 (s.raise_run f), fun s t hr h => ?_⟩
  · cases h
    rfl
  · cases h.symm.trans (step_halted hr)
    exact State.status_eq_halted_iff.2 hr

end Sys2Proof.Machine
end

section
/-! SUPPORT. The fault of an operand byte that is not there, as the decoder answers it (R113). -/

namespace Sys2Proof

/-- With no operand byte there, every row that has an operand lacks A. -/
theorem decodeOperands_missingA {m : Mnemonic} (hm : 1 ≤ m.count) :
    decodeOperands m [] = .error (.operandMissing 1) := by
  cases m
  case hlt | ret => cases hm
  all_goals rfl

/-- With operand A alone there, every row of two operands lacks B; the value of A is not looked at (R206). -/
theorem decodeOperands_missingB {m : Mnemonic} (hm : m.count = 2) (a : Byte) :
    decodeOperands m [a] = .error (.operandMissing 2) := by
  cases m
  case ldi | mul | add | cmp => rfl
  all_goals cases hm

end Sys2Proof
end

section
/-! SUPPORT. The faults of a step that are the same for every instruction: those of the fetch (R111, R112), and those of the
operand bytes of the row at `pc` (R113, R85). -/

open Sys2Proof.Claims

namespace Sys2Proof.Machine

theorem State.readAhead_inside {s : State} {a : Nat} (h : a < s.cfg.memSize) :
    s.readAhead a = .ok (some (s.byteAt a)) := by
  rw [State.readAhead, if_pos h]

/-- A read-ahead outside memory faults under STRICT_READAHEAD (R112). -/
theorem State.readAhead_strict {s : State} {a : Nat} (hs : s.cfg.strictReadAhead = true) (h : s.cfg.memSize ≤ a) :
    s.readAhead a = .error (.memoryFault a) := by
  rw [State.readAhead, if_neg (by omega), if_pos hs]

/-- A MemoryFault of the fetch ends the step with its record (R203). -/
theorem step_of_fetchBytes_error {s : State} (hr : s.run = .running) (hc : s.cfg.wf = true) {a : Nat}
    (h : s.fetchBytes = .error (.memoryFault a)) : step s = .next (s.haltedWith .memoryFault a) :=
  step_fetch_error hr hc (f := .memoryFault a) (by rw [State.fetch, h])

/-- The faults of the fetch: the first of its three reads that faults decides (R206 items 1 and 2). -/
theorem fetchFaults : FetchFaults := by
  refine fun s hr hc => ⟨fun h0 => step_of_fetchBytes_error hr hc ?_,
    fun h0 hs h1 => step_of_fetchBytes_error hr hc ?_, fun h1 hs h2 => step_of_fetchBytes_error hr hc ?_⟩
  · rw [State.fetchBytes, State.memRead_outside h0]
  · rw [State.fetchBytes, State.memRead_inside h0]
    simp only [State.readAhead_strict hs h1]
  · rw [State.fetchBytes, State.memRead_inside (by omega)]
    simp only [State.readAhead_inside h1, State.readAhead_strict hs h2]

/-- Where operand slot A lies outside memory, the opcode byte is all there is of an instruction. -/
theorem State.codeBytes_of_opcodeOnly {s : State} (h0 : s.pc.toNat < s.cfg.memSize)
    (h1 : s.cfg.memSize ≤ s.pc.toNat + 1) : s.codeBytes = [s.byteAt s.pc.toNat] := by
  have h1' : ¬ s.pc.toNat + 1 < s.cfg.memSize := by omega
  have h2' : ¬ s.pc.toNat + 2 < s.cfg.memSize := by omega
  simp [State.codeBytes, h0, h1', h2']

/-- An operand byte that the row at `pc` lacks halts with MemoryFault of its address (R113, R203). -/
theorem step_of_operand_missing {s : State} (hc : s.CanFetch) {m : Mnemonic} {ops : List Byte} {k : Nat}
    (hbytes : s.codeBytes = s.cfg.opcode m :: ops) (h : decodeOperands m ops = .error (.operandMissing k)) :
    step s = .next (s.haltedWith .memoryFault (s.pc.toNat + k)) :=
  step_of_decode_error hc (e := .operandMissing k) (by rw [hbytes, decode_opcode hc.legal, h])

/-- The faults of the operand bytes, for every row: presence of A, presence of B, register A, register B (R206 items 4
to 7). -/
theorem operandFaults (m : Mnemonic) : OperandFaults m := by
  refine fun s hc hop => ⟨fun hm h1 => ?_, fun hm h1 h2 => ?_, step_operandA_illegal hc hop, step_operandB_illegal hc hop⟩
  · have hbytes := State.codeBytes_of_opcodeOnly hc.opcodeInside h1
    rw [hop] at hbytes
    exact step_of_operand_missing hc hbytes (decodeOperands_missingA hm)
  · have hbytes := State.codeBytes_of_slotA h1
    rw [hop, if_neg (by omega)] at hbytes
    exact step_of_operand_missing hc hbytes (decodeOperands_missingB hm _)

end Sys2Proof.Machine
end

section
/-! SUPPORT. What an instruction leaves alone: the other registers; and the run state, the halt record and the parameters,
where HLT writes the record by itself and a stack access outside memory as a fault (R140, R205). -/

namespace Sys2Proof.Machine

/-- A write of one register, and the advance after it, leave every other register alone. -/
theorem regsKeptBut_setReg_advance (s : State) (a : Reg) (v : Byte) (n : Nat) :
    RegsKeptBut [a] s ((s.setReg a v).advance n) :=
  fun _ hr => s.reg_setReg_ne v (List.ne_of_not_mem_cons hr)

/-- A stack instruction keeps control where its address `a` exists and halts with MemoryFault of it where it does not. -/
theorem control_of_stack {i : Instr} {s t u : State} {a : Nat} (inside : a < s.cfg.memSize → exec i s = .next u)
    (hu : ControlKept s u) (outside : s.cfg.memSize ≤ a → exec i s = .next (s.haltedWith .memoryFault a))
    (h : exec i s = .next t) : ControlKept s t ∨ ∃ n, t = s.haltedWith .memoryFault n := by
  rcases Nat.lt_or_ge a s.cfg.memSize with ha | ha
  · cases h.symm.trans (inside ha)
    exact .inl hu
  · cases h.symm.trans (outside ha)
    exact .inr ⟨a, rfl⟩

/-- Every instruction but HLT leaves the run state, the record and the parameters alone, or takes a MemoryFault. -/
theorem exec_control_cases {i : Instr} {s t : State} (h : exec i s = .next t) :
    i = .hlt ∨ ControlKept s t ∨ ∃ n, t = s.haltedWith .memoryFault n := by
  have kept {u : State} (hu : exec i s = .next u) (hk : ControlKept s u) : ControlKept s t := by
    cases h.symm.trans hu
    exact hk
  cases i with
  | hlt => exact .inl rfl
  | ldi _ _ | prn _ | mul _ _ | add _ _ | cmp _ _ | jmp _ => exact .inr (.inl (kept rfl ⟨rfl, rfl, rfl, rfl⟩))
  | jeq a => exact .inr (.inl (kept (exec_jeq a s) ⟨rfl, rfl, rfl, rfl⟩))
  | jne a => exact .inr (.inl (kept (exec_jne a s) ⟨rfl, rfl, rfl, rfl⟩))
  | push a => exact .inr (control_of_stack (exec_push_inside · a) ⟨rfl, rfl, rfl, rfl⟩ (exec_push_outside · a) h)
  | pop a => exact .inr (control_of_stack (exec_pop_inside · a) ⟨rfl, rfl, rfl, rfl⟩ (exec_pop_outside · a) h)
  | call a => exact .inr (control_of_stack (exec_call_inside · a) ⟨rfl, rfl, rfl, rfl⟩ (exec_call_outside · a) h)
  | ret => exact .inr (control_of_stack exec_ret_inside ⟨rfl, rfl, rfl, rfl⟩ exec_ret_outside h)

theorem State.cleanEnd_iff {s : State} : s.cleanEnd = true ↔ s.run = .halted ∧ s.cause = .hlt := by
  simp [State.cleanEnd]

/-- A fault taken is no clean end (R218). -/
theorem State.raise_not_cleanEnd (s : State) (f : Fault) : (s.raise f).cleanEnd = false := by cases f <;> rfl

/-- A step of a Running machine that ends cleanly ran HLT, whose byte stands at `pc` (R122, R140). -/
theorem step_cleanEnd {s t : State} (hr : s.run = .running) (h : step s = .next t) (hend : t.cleanEnd = true) :
    s.byteAt s.pc.toNat = s.cfg.opcode .hlt := by
  rcases step_cases h with ⟨hh, -⟩ | ⟨-, -, ⟨f, -, rfl⟩ | ⟨i, hc, hf, hx⟩⟩
  · cases hr.symm.trans hh
  · cases hend.symm.trans (s.raise_not_cleanEnd f)
  · rcases exec_control_cases hx with rfl | ⟨hrun, -⟩ | ⟨n, rfl⟩
    · exact State.byteAt_pc_of_fetch hc hf
    · cases (State.cleanEnd_iff.1 hend).1.symm.trans (hrun.trans hr)
    · cases hend

end Sys2Proof.Machine
end

section
/-! SUPPORT. The console's text, value by value, and the decimal digits of a value (R142). -/

open Sys2Proof.Claims

namespace Sys2Proof.Machine

theorem consoleText_cons (v : Byte) (vs : List Byte) :
    consoleText (v :: vs) = consoleLine v ++ lineEnd ++ consoleText vs :=
  List.flatMap_cons

/-- The library's character of a decimal digit is the claim's. -/
theorem digitChar_eq_digit {n : Nat} (h : n < 10) : n.digitChar = digit n := by
  have all : ∀ k : Fin 10, k.val.digitChar = digit k.val := by decide
  exact all ⟨n, h⟩

theorem toDigits_of_lt_ten {n : Nat} (h : n < 10) : Nat.toDigits 10 n = [digit n] := by
  rw [Nat.toDigits_of_lt_base h, digitChar_eq_digit h]

theorem toDigits_of_ten_le {n : Nat} (h : 10 ≤ n) : Nat.toDigits 10 n = Nat.toDigits 10 (n / 10) ++ [digit (n % 10)] := by
  rw [Nat.toDigits_of_base_le (by decide) h, digitChar_eq_digit (by omega)]

/-- A value's line is its one, two or three decimal digits, no leading zero (R142). -/
theorem consoleLine_digits (v : Byte) : consoleLine v =
    if v.toNat < 10 then [digit v.toNat]
    else if v.toNat < 100 then [digit (v.toNat / 10), digit (v.toNat % 10)]
    else [digit (v.toNat / 100), digit (v.toNat / 10 % 10), digit (v.toNat % 10)] := by
  have hv := v.isLt
  rw [consoleLine]
  split
  · next h1 => exact toDigits_of_lt_ten h1
  rw [toDigits_of_ten_le (by omega)]
  split
  · next h2 =>
    rw [toDigits_of_lt_ten (by omega)]
    rfl
  · rw [toDigits_of_ten_le (by omega), toDigits_of_lt_ten (by omega), Nat.div_div_eq_div_mul]
    rfl

end Sys2Proof.Machine
end

section
/-! PROOFS. The statements about HLT (R140), LDI (R141) and PRN (R142). -/

namespace Sys2Proof.Machine

/-- Settles O31: the halted state is written out by `execHlt`, and only HLT can end a step cleanly. -/
theorem hltRule : Obligations.HltRule := by
  refine ⟨fun _ => rfl, fetchFaults, fun s hpc => ?_, fun s t => step_cleanEnd⟩
  have hadv : ((s.halt .hlt s.pc).advance 0).pc.toNat = s.pc.toNat + 1 := State.advance_pc_toNat hpc (by decide)
  exact ⟨_, rfl, rfl, rfl, rfl, hadv, fun _ _ => rfl, rfl, fun _ => rfl, rfl, rfl, rfl, step_halted rfl⟩

/-- Settles O32: the state after LDI is a register write and an advance. -/
theorem ldiRule : Obligations.LdiRule := by
  refine ⟨fun _ _ _ => rfl, operandFaults .ldi, fun s a b hpc => ?_⟩
  have hadv : ((s.setReg a b).advance 2).pc.toNat = s.pc.toNat + 3 := State.advance_pc_toNat hpc (by decide)
  exact ⟨_, rfl, s.reg_setReg_self a b, hadv, regsKeptBut_setReg_advance s a b 2, rfl, fun _ => rfl, rfl,
    rfl, rfl, rfl, rfl⟩

/-- Settles O33: the state after PRN is an append and an advance; the console's line is the digits of the value. -/
theorem prnRule : Obligations.PrnRule := by
  refine ⟨fun _ _ => rfl, operandFaults .prn, fun s a hpc => ?_, ⟨rfl, consoleText_cons⟩, consoleLine_digits⟩
  have hadv : ((s.emit (s.reg a)).advance 1).pc.toNat = s.pc.toNat + 2 := State.advance_pc_toNat hpc (by decide)
  exact ⟨_, rfl, rfl, hadv, fun _ _ => rfl, rfl, fun _ => rfl, rfl, rfl, rfl, rfl⟩

end Sys2Proof.Machine
end

section
/-! PROOFS. The statements about MUL (R150) and ADD (R151). Both write one register with a value of the old registers and
advance past two operand bytes, so their frame is one lemma and each brings only its own arithmetic. -/

namespace Sys2Proof.Machine

/-- The product modulo 256 (R150). -/
@[simp] theorem aluMul_toNat (u v : Byte) : (aluMul u v).toNat = u.toNat * v.toNat % 256 := low8_toNat _

/-- The sum modulo 256, its carry lost (R151). -/
@[simp] theorem aluAdd_toNat (u v : Byte) : (aluAdd u v).toNat = (u.toNat + v.toNat) % 256 := low8_toNat _

/-- An instruction that writes `v` to `x[a]` and advances past two operand bytes leaves the number of `v` in `x[a]`, `pc`
three further, and all else as it was. -/
theorem exec_of_setReg_advance {i : Instr} {s : State} {a : Reg} {v : Byte} {n : Nat}
    (h : exec i s = .next ((s.setReg a v).advance 2)) (hv : v.toNat = n) (hpc : s.pc.toNat < 256) :
    ∃ t, exec i s = .next t ∧ (t.reg a).toNat = n ∧ t.pc.toNat = s.pc.toNat + 3 ∧ RegsKeptBut [a] s t ∧ t.e = s.e ∧
      MemKept s t ∧ t.out = s.out ∧ ControlKept s t := by
  have hreg : (((s.setReg a v).advance 2).reg a).toNat = n := by rw [State.advance_reg, State.reg_setReg_self, hv]
  have hadv : ((s.setReg a v).advance 2).pc.toNat = s.pc.toNat + 3 := State.advance_pc_toNat hpc (by decide)
  exact ⟨_, h, hreg, hadv, regsKeptBut_setReg_advance s a v 2, rfl, fun _ => rfl, rfl, rfl, rfl, rfl, rfl⟩

/-- Settles O34: MUL writes the ALU's product of the two registers as they stand before the write, also where A = B. -/
theorem mulRule : Obligations.MulRule :=
  ⟨fun _ _ _ => rfl, operandFaults .mul, fun s a b => exec_of_setReg_advance rfl (aluMul_toNat (s.reg a) (s.reg b))⟩

/-- Settles O35: ADD writes the ALU's sum of the two registers as they stand before the write, also where A = B. -/
theorem addRule : Obligations.AddRule :=
  ⟨fun _ _ _ => rfl, operandFaults .add, fun s a b => exec_of_setReg_advance rfl (aluAdd_toNat (s.reg a) (s.reg b))⟩

end Sys2Proof.Machine
end

section
/-! PROOFS. The statements about PUSH (R160) and POP (R161), each from the two ends of its execute phase. The push is the
effect PUSH and CALL share, so what it changes and leaves alone is said once. -/

namespace Sys2Proof.Machine

/-- A push leaves SP decremented (R160, R170). -/
@[simp] theorem State.pushed_sp (s : State) (v : Byte) : (s.pushed v).sp = s.sp - 1#8 := s.setReg_sp_self _

/-- A push leaves every register but SP alone. -/
theorem State.regsKeptBut_pushed (s : State) (v : Byte) : RegsKeptBut [Reg.sp] s (s.pushed v) :=
  fun _ hr => s.reg_setReg_ne _ (List.ne_of_not_mem_cons hr)

/-- The pushed byte reads back at the decremented SP, in a canonical memory. -/
theorem State.byteAt_pushed_self {s : State} (hm : s.mem.wf = true) (v : Byte) :
    (s.pushed v).byteAt (s.sp - 1#8).toNat = v :=
  Memory.get_set_self hm _ v

/-- A push leaves every byte but the one at the decremented SP alone. -/
theorem State.memKeptBut_pushed (s : State) (v : Byte) : MemKeptBut (s.sp - 1#8).toNat s (s.pushed v) :=
  fun _ ha => Memory.get_set_ne s.mem v ha

/-- Settles O36: inside memory PUSH is a push of `x[A]` as it reads after the decrement, then an advance. -/
theorem pushRule : Obligations.PushRule := by
  refine ⟨fun _ _ => rfl, operandFaults .push, fun s a hm hpc hin => ?_, fun s a hout => exec_push_outside hout a⟩
  have hv : (s.setReg Reg.sp (s.sp - 1#8)).reg a = if a = 7 then s.sp - 1#8 else s.reg a := s.reg_setReg Reg.sp a _
  have hpush := exec_push_inside hin a
  rw [hv] at hpush
  generalize (if a = 7 then s.sp - 1#8 else s.reg a) = v at hpush ⊢
  have hadv : ((s.pushed v).advance 1).pc.toNat = s.pc.toNat + 2 := State.advance_pc_toNat hpc (by decide)
  exact ⟨_, hpush, s.pushed_sp v, s.regsKeptBut_pushed v, State.byteAt_pushed_self hm v, s.memKeptBut_pushed v, hadv,
    rfl, rfl, rfl, rfl, rfl, rfl⟩

/-- POP's write of `x[A]` and its increment of SP leave every other register alone. -/
theorem regsKeptBut_setReg_spUp (s : State) (a : Reg) (v : Byte) : RegsKeptBut [a, Reg.sp] s (s.setReg a v).spUp := by
  intro r hr
  obtain ⟨ha, hsp⟩ : r ≠ a ∧ r ≠ Reg.sp := by simpa using hr
  rw [State.spUp_reg, if_neg hsp, State.reg_setReg_ne s v ha]

/-- POP of a register other than SP: the byte is loaded there, and the old SP is incremented (R161). -/
theorem State.spUp_setReg_ne {s : State} {a : Reg} (v : Byte) (ha : a ≠ Reg.sp) :
    (s.setReg a v).spUp.reg a = v ∧ (s.setReg a v).spUp.sp = s.sp + 1#8 := by
  constructor
  · rw [State.spUp_reg, if_neg ha, State.reg_setReg_self]
  · rw [State.spUp_sp, State.sp_eq, State.reg_setReg_ne s v ha.symm, State.sp_eq]

/-- POP of SP itself: the loaded byte is what is incremented (R161, D11). -/
theorem State.spUp_setReg_sp {s : State} {a : Reg} (v : Byte) (ha : a = Reg.sp) : (s.setReg a v).spUp.sp = v + 1#8 := by
  rw [State.spUp_sp, ha, State.setReg_sp_self]

/-- Settles O37: inside memory POP writes the byte at SP to `x[A]`, then increments SP as it stands after that write: the
loaded byte for A = 7, the old SP for any other. -/
theorem popRule : Obligations.PopRule := by
  refine ⟨fun _ _ => rfl, operandFaults .pop, fun s a hpc hin => ?_, fun s a hout => exec_pop_outside hout a⟩
  have hadv : ((s.setReg a (s.byteAt s.sp.toNat)).spUp.advance 1).pc.toNat = s.pc.toNat + 2 :=
    State.advance_pc_toNat hpc (by decide)
  exact ⟨_, exec_pop_inside hin a, State.spUp_setReg_ne _, State.spUp_setReg_sp _, regsKeptBut_setReg_spUp s a _,
    fun _ => rfl, hadv, rfl, rfl, rfl, rfl, rfl, rfl⟩

end Sys2Proof.Machine
end

section
/-! PROOFS. The statements about CALL (R170) and RET (R171). CALL is the push it shares with PUSH and a transfer to `x[A]`;
RET is a transfer to the byte at SP and the increment of SP. -/

namespace Sys2Proof.Machine

/-- The target of a transfer through a register is the register's own number (R185). -/
@[simp] theorem State.target_toNat (s : State) (r : Reg) : (s.target r).toNat = (s.reg r).toNat := zext9_toNat _

/-- The byte CALL stores is the return address modulo 256 (R170, D10). -/
@[simp] theorem State.returnByte_toNat (s : State) : s.returnByte.toNat = (s.pc.toNat + 2) % 256 := low8_toNat _

/-- The increment of SP leaves every other register alone (R162). -/
theorem State.regsKeptBut_spUp (s : State) : RegsKeptBut [Reg.sp] s s.spUp :=
  fun _ hr => s.reg_setReg_ne _ (List.ne_of_not_mem_cons hr)

/-- Settles O38: inside memory CALL is a push of the return byte, then a transfer to `x[A]` as it reads after the
decrement: the decremented SP for A = 7, the old `x[A]` for any other. -/
theorem callRule : Obligations.CallRule := by
  refine ⟨fun _ _ => rfl, operandFaults .call, fun s a hm hin => ?_, fun s a hout => exec_call_outside hout a⟩
  have hstored : ((s.pushed s.returnByte).byteAt (s.sp - 1#8).toNat).toNat = (s.pc.toNat + 2) % 256 := by
    rw [State.byteAt_pushed_self hm, State.returnByte_toNat]
  have htarget : ((s.setReg Reg.sp (s.sp - 1#8)).target a).toNat = (if a = 7 then s.sp - 1#8 else s.reg a).toNat := by
    rw [State.target_toNat, State.reg_setReg]
  exact ⟨_, exec_call_inside hin a, s.pushed_sp s.returnByte, s.regsKeptBut_pushed s.returnByte, hstored,
    s.memKeptBut_pushed s.returnByte, htarget, rfl, rfl, rfl, rfl, rfl, rfl⟩

/-- Settles O39: inside memory RET transfers to the byte at SP, whatever put it there, and increments SP. -/
theorem retRule : Obligations.RetRule := by
  refine ⟨fun _ => rfl, fetchFaults, fun s hin => ?_, fun s => exec_ret_outside⟩
  exact ⟨_, exec_ret_inside hin, zext9_toNat _, State.spUp_sp _, State.regsKeptBut_spUp _, fun _ => rfl,
    rfl, rfl, rfl, rfl, rfl, rfl⟩

end Sys2Proof.Machine
end

section
/-! PROOFS. The statements about CMP (R180), JMP (R181), JEQ (R182) and JNE (R183). CMP writes E and advances; the other
three set `pc` alone, and the two branches share one lemma over the two program counters E chooses between. -/

namespace Sys2Proof.Machine

theorem equalFlag_eq_true_iff {u v : Byte} : equalFlag u v = true ↔ u = v := beq_iff_eq

theorem equalFlag_eq_false_iff {u v : Byte} : equalFlag u v = false ↔ u ≠ v := beq_eq_false_iff_ne

/-- Settles O40: the state after CMP is a write of E, to the comparison of the two registers, and an advance. -/
theorem cmpRule : Obligations.CmpRule := by
  refine ⟨fun _ _ _ => rfl, operandFaults .cmp, fun s a b hpc => ?_⟩
  have hadv : ((s.setE (equalFlag (s.reg a) (s.reg b))).advance 2).pc.toNat = s.pc.toNat + 3 :=
    State.advance_pc_toNat hpc (by decide)
  exact ⟨_, rfl, equalFlag_eq_true_iff.2, equalFlag_eq_false_iff.2, hadv, fun _ _ => rfl, fun _ => rfl, rfl,
    rfl, rfl, rfl, rfl⟩

/-- A transfer to the address `pc` already holds changes nothing (R181). -/
theorem State.setPc_eq_self {s : State} {v : Pc} (h : v.toNat = s.pc.toNat) : s.setPc v = s := by
  rw [BitVec.eq_of_toNat_eq h]
  rfl

/-- Settles O41: JMP sets `pc` alone, so that to its own address it sets it to what it is. -/
theorem jmpRule : Obligations.JmpRule := by
  refine ⟨fun _ _ => rfl, operandFaults .jmp, fun s a => ?_⟩
  have hpc : (s.target a).toNat = (s.reg a).toNat := s.target_toNat a
  exact ⟨s.setPc (s.target a), rfl, hpc, fun _ _ => rfl, rfl, fun _ => rfl, rfl, ⟨rfl, rfl, rfl, rfl⟩,
    fun hself => State.setPc_eq_self (hpc.trans hself)⟩

/-- The program counter after a branch that is not taken: the generic advance over one operand byte (R117). -/
theorem State.pc_add_two_toNat {s : State} (h : s.pc.toNat < 256) : (s.pc + 2#9).toNat = s.pc.toNat + 2 :=
  State.advance_pc_toNat (n := 1) h (by decide)

/-- An instruction that sets `pc` to `v` where E is set and to `w` where it is clear leaves all else as it was. -/
theorem exec_of_branch {i : Instr} {s : State} {v w : Pc} {m n : Nat}
    (h : exec i s = .next (s.setPc (if s.e then v else w))) (hv : v.toNat = m) (hw : w.toNat = n) :
    ∃ t, exec i s = .next t ∧ (s.e = true → t.pc.toNat = m) ∧ (s.e = false → t.pc.toNat = n) ∧ RegsKeptBut [] s t ∧
      t.e = s.e ∧ MemKept s t ∧ t.out = s.out ∧ ControlKept s t := by
  refine ⟨_, h, fun he => ?_, fun he => ?_, fun _ _ => rfl, rfl, fun _ => rfl, rfl, rfl, rfl, rfl, rfl⟩
  · rw [State.setPc_pc, if_pos he, hv]
  · rw [State.setPc_pc, he, if_neg Bool.false_ne_true, hw]

/-- Settles O42: JEQ transfers where E is set; the check of its register is the decoder's, before E is looked at. -/
theorem jeqRule : Obligations.JeqRule :=
  ⟨fun _ _ => rfl, operandFaults .jeq, fun s a hpc =>
    exec_of_branch (exec_jeq a s) (s.target_toNat a) (State.pc_add_two_toNat hpc)⟩

/-- Settles O43: JNE is the branch with its two program counters exchanged. -/
theorem jneRule : Obligations.JneRule := by
  refine ⟨fun _ _ => rfl, operandFaults .jne, fun s a hpc => ?_⟩
  obtain ⟨t, hx, hnext, htaken, frame⟩ := exec_of_branch (exec_jne a s) (State.pc_add_two_toNat hpc) (s.target_toNat a)
  exact ⟨t, hx, htaken, hnext, frame⟩

end Sys2Proof.Machine
end

section
/-! PROOFS. The statements about the two faults: what taking one leaves (R203, R204), that it leaves nothing else (R205),
and the order in which a step meets them (R206). -/

open Sys2Proof.Claims

namespace Sys2Proof.Machine

/-! ### The two faults of a step that remain -/

/-- The fault of an unrecognised opcode byte: it is the first byte read, and no row has it (R91). -/
theorem opcodeFault : OpcodeFault := by
  intro s hc hop
  obtain ⟨rest, hbytes⟩ := State.codeBytes_eq_cons hc.opcodeInside
  rw [step_of_decode_error hc (by rw [hbytes, decode_unrecognised hop]), State.decodeFault,
    State.raise_illegalInstruction]

/-- The stack faults of a step are those of the four stack instructions, since the step runs the instruction at `pc`. -/
theorem stackFaults : StackFaults := by
  intro s i hc hi
  rw [step_of_encode_prefix hc hi]
  cases i with
  | push a => exact ⟨fun _ hout => exec_push_outside hout a, nofun⟩
  | call a => exact ⟨fun _ hout => exec_call_outside hout a, nofun⟩
  | pop a => exact ⟨nofun, fun _ hout => exec_pop_outside hout a⟩
  | ret => exact ⟨nofun, fun _ hout => exec_ret_outside hout⟩
  | hlt | ldi _ _ | prn _ | mul _ _ | add _ _ | cmp _ _ | jmp _ | jeq _ | jne _ =>
    exact ⟨nofun, nofun⟩

/-! ### The halt record -/

/-- A halt with a record is Halted, reads back the record where its number fits nine bits, and leaves every other piece of
state as it was. -/
theorem State.haltedWith_effect (s : State) (c : Cause) {n : Nat} (hn : n < 512) :
    (s.haltedWith c n).run = .halted ∧ (s.haltedWith c n).cause = c ∧ (s.haltedWith c n).info.toNat = n ∧
    (∀ r, (s.haltedWith c n).reg r = s.reg r) ∧ (s.haltedWith c n).pc = s.pc ∧ (s.haltedWith c n).e = s.e ∧
    MemKept s (s.haltedWith c n) ∧ (s.haltedWith c n).out = s.out ∧ (s.haltedWith c n).cfg = s.cfg ∧
    (s.haltedWith c n).status = .halted :=
  ⟨rfl, rfl, Nat.mod_eq_of_lt hn, fun _ => rfl, rfl, rfl, fun _ => rfl, rfl, rfl, rfl⟩

/-- A state halted with a record is the state before with the record it now holds. -/
theorem State.eq_haltedWith_own_record {s t : State} {c : Cause} {n : Nat} (h : t = s.haltedWith c n) :
    t = s.haltedWith t.cause t.info.toNat := by
  subst h
  simp only [State.haltedWith, BitVec.ofNat_toNat, BitVec.setWidth_eq]

/-- A step that halts a Running machine ran HLT, or left the state before with the record of one of the two faults (R205):
every other instruction that completes leaves the machine Running. -/
theorem step_halts_cases {s t : State} (hr : s.run = .running) (h : step s = .next t) (ht : t.run = .halted) :
    (t.cause = .hlt ∧ s.byteAt s.pc.toNat = s.cfg.opcode .hlt) ∨
    ∃ c n, (c = .illegalInstruction ∨ c = .memoryFault) ∧ t = s.haltedWith c n := by
  rcases step_cases h with ⟨hh, -⟩ | ⟨-, -, ⟨f, -, rfl⟩ | ⟨i, hc, hf, hx⟩⟩
  · cases hr.symm.trans hh
  · exact .inr (s.raise_eq_haltedWith f)
  · rcases exec_control_cases hx with rfl | ⟨hrun, -⟩ | ⟨n, rfl⟩
    · cases hx
      exact .inl ⟨rfl, State.byteAt_pc_of_fetch hc hf⟩
    · cases ht.symm.trans (hrun.trans hr)
    · exact .inr ⟨_, n, .inr rfl, rfl⟩

/-! ### The statements -/

/-- Settles O10: each of the four groups of faults, the guards of each item excluding the items before it. -/
theorem faultOrder : Obligations.FaultOrder :=
  ⟨fetchFaults, opcodeFault, operandFaults, stackFaults⟩

/-- Settles O11, from what a halting step can be; HLT's byte is the source's in every machine. -/
theorem faultsArePrecise : Obligations.FaultsArePrecise := by
  intro s t hr h ht
  rcases step_halts_cases hr h ht with hhlt | ⟨c, n, hcause, heq⟩
  · exact .inl hhlt
  · have htc : t.cause = c := by rw [heq, State.haltedWith_cause]
    exact .inr ⟨htc ▸ hcause, State.eq_haltedWith_own_record heq⟩

/-- Settles O13: the fault taken is a halt with a record, and an address up to 258 fits `info`. -/
theorem memoryFaultEffect : Obligations.MemoryFaultEffect :=
  fun s _ hk => s.haltedWith_effect .memoryFault (hk.trans_lt (by decide))

/-- Settles O14: the two faults of a step that raise it, and the fault taken is a halt with a record, whose byte fits
`info`. -/
theorem illegalInstructionEffect : Obligations.IllegalInstructionEffect := by
  refine ⟨opcodeFault, operandFaults, fun s v => ?_⟩
  rw [State.raise_illegalInstruction]
  exact s.haltedWith_effect .illegalInstruction (v.isLt.trans (by decide))

end Sys2Proof.Machine
end

section
/-! PROOFS. The statement about the host's load (R237): in range it is the write of R53, out of range it is nothing. -/

namespace Sys2Proof.Machine

theorem State.load_of_memWrite_ok {s t : State} {a : Nat} {v : Byte} (h : s.memWrite a v = .ok t) : s.load a v = t := by
  rw [State.load, h]

theorem State.load_outside {s : State} {a : Nat} (h : s.cfg.memSize ≤ a) (v : Byte) : s.load a v = s := by
  rw [State.load, State.memWrite_outside h]

/-- A read of the address just written answers the byte written, in a canonical memory (R52, R53). -/
theorem State.memRead_memWrite_self {s t : State} {a : Nat} {v : Byte} (hm : s.mem.wf = true)
    (h : s.memWrite a v = .ok t) : t.memRead a = .ok v := by
  obtain ⟨ha, ht⟩ := State.memWrite_ok h
  have hin : a < t.cfg.memSize := by rw [ht]; exact ha
  rw [State.memRead_inside hin, State.byteAt_memWrite_self hm h]

/-- Settles O18: in range the load is a write that answers, which sets that byte alone and which the read of that address
then gives; only the byte read back needs the canonical form. -/
theorem hostLoad : Obligations.HostLoad := by
  refine fun s k v hm => ⟨fun hk => ?_, fun hk => State.load_outside hk v⟩
  have hw := State.memWrite_inside hk v
  rw [State.load_of_memWrite_ok hw]
  exact ⟨State.memRead_memWrite_self hm hw, fun _ => State.byteAt_memWrite_ne hw, rfl⟩

end Sys2Proof.Machine
end

section
/-! SUPPORT. The well-formed words (R82 to R86): the legal operands of a row are the operand bytes of its instructions. -/

namespace Sys2Proof

theorem OperandKind.legal_byteOfReg (r : Reg) : OperandKind.reg.legal (byteOfReg r) = true := by
  simp [OperandKind.legal]

/-- The encoder writes legal operands of the instruction's row (R82, R84, R90). -/
theorem operandsLegal_operandBytes (i : Instr) : operandsLegal i.mnemonic.kinds i.operandBytes = true := by
  cases i
  case hlt | ret => rfl
  case ldi a b => exact Bool.and_eq_true_iff.2 ⟨OperandKind.legal_byteOfReg a, rfl⟩
  case mul a b | add a b | cmp a b =>
    exact Bool.and_eq_true_iff.2
      ⟨OperandKind.legal_byteOfReg a, Bool.and_eq_true_iff.2 ⟨OperandKind.legal_byteOfReg b, rfl⟩⟩
  case prn a | push a | pop a | call a | jmp a | jeq a | jne a =>
    exact Bool.and_eq_true_iff.2 ⟨OperandKind.legal_byteOfReg a, rfl⟩

/-- Legal operands are as many as their kinds. -/
theorem length_of_operandsLegal {ks : List OperandKind} {ops : List Byte} (h : operandsLegal ks ops = true) :
    ops.length = ks.length := by
  induction ks generalizing ops with
  | nil =>
    cases ops with
    | nil => rfl
    | cons b bs => cases h
  | cons k ks ih =>
    cases ops with
    | nil => cases h
    | cons b bs => exact congrArg (· + 1) (ih (Bool.and_eq_true_iff.1 h).2)

theorem operandBytes_length (i : Instr) : i.operandBytes.length = i.mnemonic.count := by
  cases i <;> rfl

theorem operandsF1_of_legal {ops : List Byte} (h : operandsLegal [.reg] ops = true) (mk : Reg → Instr) :
    ∃ i, operandsF1 mk ops = .ok i := by
  match ops, length_of_operandsLegal h with
  | [a], _ =>
    obtain ⟨ha, -⟩ : a.toNat < 8 ∧ True := by simpa [operandsLegal, OperandKind.legal] using h
    exact ⟨_, by rw [operandsF1, regOfByte_legal ha]⟩

theorem operandsF2Regs_of_legal {ops : List Byte} (h : operandsLegal [.reg, .reg] ops = true) (mk : Reg → Reg → Instr) :
    ∃ i, operandsF2Regs mk ops = .ok i := by
  match ops, length_of_operandsLegal h with
  | [a, b], _ =>
    obtain ⟨ha, hb⟩ : a.toNat < 8 ∧ b.toNat < 8 := by simpa [operandsLegal, OperandKind.legal] using h
    exact ⟨_, by rw [operandsF2Regs, regOfByte_legal ha, regOfByte_legal hb]⟩

theorem operandsF2Imm_of_legal {ops : List Byte} (h : operandsLegal [.reg, .imm] ops = true) (mk : Reg → Byte → Instr) :
    ∃ i, operandsF2Imm mk ops = .ok i := by
  match ops, length_of_operandsLegal h with
  | [a, b], _ =>
    have ha : a.toNat < 8 := by simpa [operandsLegal, OperandKind.legal] using h
    exact ⟨_, by rw [operandsF2Imm, regOfByte_legal ha]⟩

/-- Legal operands of a row are read as an instruction. -/
theorem decodeOperands_of_legal {m : Mnemonic} {ops : List Byte} (h : operandsLegal m.kinds ops = true) :
    ∃ i, decodeOperands m ops = .ok i := by
  cases m
  case hlt | ret => exact ⟨_, rfl⟩
  case ldi => exact operandsF2Imm_of_legal h _
  case mul | add | cmp => exact operandsF2Regs_of_legal h _
  case prn | push | pop | call | jmp | jeq | jne => exact operandsF1_of_legal h _

/-- Legal operands of a row are the operand bytes of an instruction of that row, with nothing after them. -/
theorem exists_instr_of_operandsLegal {m : Mnemonic} {ops : List Byte} (h : operandsLegal m.kinds ops = true) :
    ∃ i : Instr, i.mnemonic = m ∧ i.operandBytes = ops := by
  obtain ⟨i, hi⟩ := decodeOperands_of_legal h
  obtain ⟨hm, hprefix⟩ := decodeOperands_ok hi
  have hlen : i.operandBytes.length = ops.length := by
    rw [operandBytes_length, hm, length_of_operandsLegal h, Mnemonic.count]
  exact ⟨i, hm, hprefix.eq_of_length hlen⟩

/-- A well-formed word is an opcode byte of the table with legal operands of that row. -/
theorem wellFormedWords_iff {c : Config} {ir : Byte} {ops : List Byte} :
    wellFormedWords c (ir :: ops) = true ↔ ∃ m, c.opcode m = ir ∧ operandsLegal m.kinds ops = true := by
  simp [wellFormedWords, Mnemonic.mem_all]

end Sys2Proof
end

section
/-! PROOFS. The statements about the encoding: decoder and encoder (R94), the well-formed words (R82 to R86), the default
opcode bytes (R88) and what every legal assignment of them fixes (R89). -/

namespace Sys2Proof

/-- Settles O4: each direction is a law of the decoder, which reads an instruction off its encoding and nothing else. -/
theorem decodeExactlyEncodings : Obligations.DecodeExactlyEncodings :=
  fun _ _ _ hc => ⟨encode_prefix_of_decode, decode_of_encode_prefix hc⟩

/-- Settles O5: an encoding is its row's opcode byte with legal operands, and legal operands are some instruction's. -/
theorem encodingsAreWellFormedWords : Obligations.EncodingsAreWellFormedWords := by
  refine fun c bs _ => ⟨?_, fun h => ?_⟩
  · rintro ⟨i, rfl⟩
    exact wellFormedWords_iff.2 ⟨i.mnemonic, rfl, operandsLegal_operandBytes i⟩
  · cases bs with
    | nil => cases h
    | cons ir ops =>
      obtain ⟨m, hop, hops⟩ := wellFormedWords_iff.1 h
      obtain ⟨i, rfl, rfl⟩ := exists_instr_of_operandsLegal hops
      exact ⟨i, by rw [encode, hop]⟩

/-- The spec's default parameters are a machine of the spec. -/
theorem Config.default_wf : Config.default.wf = true := by decide

/-- Settles O2: each word is the encoding of its instruction under the default opcode bytes. -/
theorem defaultWordsDecode : Obligations.DefaultWordsDecode := by
  have dec := decode_encode Config.default_wf
  exact ⟨dec (.mul 2 3), dec (.add 0 7), dec (.push 1), dec (.pop 2), dec (.call 1), dec .ret, dec (.cmp 3 4),
    dec (.jmp 5), dec (.jeq 6), dec (.jne 7)⟩

/-- Settles O3: count bits and distinctness are the two checks of legal parameters. The source's three bytes are opcode
bytes themselves, so distinctness keeps the ten off them; `0xFF` would stand for three operands, which no row has. -/
theorem opcodeBytesConstrained : Obligations.OpcodeBytesConstrained := by
  refine fun c hc => ⟨Config.opcode_count hc, fun _ _ => Config.opcode_inj hc, fun m hhlt hldi hprn => ?_, fun m hff => ?_⟩
  · have distinct (n : Mnemonic) (h : m ≠ n) : c.opcode m ≠ c.opcode n := fun e => h (Config.opcode_inj hc e)
    exact ⟨distinct .hlt hhlt, distinct .ldi hldi, distinct .prn hprn⟩
  · have hcount : m.count = 3 := by rw [← Config.opcode_count hc m, hff]; rfl
    cases m <;> cases hcount

end Sys2Proof
end

section
/-! SUPPORT. The execute phase in two parts: the byte of the stack an instruction needs, and the state it completes in where
that byte exists. `exec_completed` and `exec_stackFault` tie both to `exec`; what an instruction does to a piece of state is
then said of `completed`, with no fault in the way. -/

namespace Sys2Proof.Machine

/-- The address of the one byte of memory an instruction reads or writes as data (R51). -/
def stackAddr (s : State) : Instr → Option Nat
  | .push _ | .call _ => some (s.sp - 1#8).toNat
  | .pop _ | .ret => some s.sp.toNat
  | _ => none

/-- The state an instruction completes in, the byte it needs being there. -/
def completed (s : State) : Instr → State
  | .hlt => (s.halt .hlt s.pc).advance 0
  | .ldi a b => (s.setReg a b).advance 2
  | .prn a => (s.emit (s.reg a)).advance 1
  | .mul a b => (s.setReg a (aluMul (s.reg a) (s.reg b))).advance 2
  | .add a b => (s.setReg a (aluAdd (s.reg a) (s.reg b))).advance 2
  | .push a => (s.pushed ((s.setReg Reg.sp (s.sp - 1#8)).reg a)).advance 1
  | .pop a => (s.setReg a (s.byteAt s.sp.toNat)).spUp.advance 1
  | .call a => (s.pushed s.returnByte).setPc ((s.setReg Reg.sp (s.sp - 1#8)).target a)
  | .ret => (s.setPc (zext9 (s.byteAt s.sp.toNat))).spUp
  | .cmp a b => (s.setE (equalFlag (s.reg a) (s.reg b))).advance 2
  | .jmp a => s.setPc (s.target a)
  | .jeq a => s.setPc (if s.e then s.target a else s.pc + 2#9)
  | .jne a => s.setPc (if s.e then s.pc + 2#9 else s.target a)

theorem exec_completed {s : State} {i : Instr} (h : ∀ a, stackAddr s i = some a → a < s.cfg.memSize) :
    exec i s = .next (completed s i) := by
  cases i with
  | push a => exact exec_push_inside (h _ rfl) a
  | call a => exact exec_call_inside (h _ rfl) a
  | pop a => exact exec_pop_inside (h _ rfl) a
  | ret => exact exec_ret_inside (h _ rfl)
  | jeq a => exact exec_jeq a s
  | jne a => exact exec_jne a s
  | hlt | ldi _ _ | prn _ | mul _ _ | add _ _ | cmp _ _ | jmp _ => rfl

theorem exec_stackFault {s : State} {i : Instr} {a : Nat} (ha : stackAddr s i = some a) (hout : s.cfg.memSize ≤ a) :
    exec i s = .next (s.haltedWith .memoryFault a) := by
  cases i <;> cases ha
  case push r => exact exec_push_outside hout r
  case call r => exact exec_call_outside hout r
  case pop r => exact exec_pop_outside hout r
  case ret => exact exec_ret_outside hout

/-- Every execute phase completes or takes the fault of its stack access. -/
theorem exec_cases (s : State) (i : Instr) :
    ((∀ a, stackAddr s i = some a → a < s.cfg.memSize) ∧ exec i s = .next (completed s i)) ∨
    (∃ a, stackAddr s i = some a ∧ s.cfg.memSize ≤ a ∧ exec i s = .next (s.haltedWith .memoryFault a)) := by
  by_cases h : ∀ a, stackAddr s i = some a → a < s.cfg.memSize
  · exact .inl ⟨h, exec_completed h⟩
  · push Not at h
    obtain ⟨a, ha, hout⟩ := h
    exact .inr ⟨a, ha, hout, exec_stackFault ha hout⟩

/-- The same of a state the execute phase answers. -/
theorem exec_next_cases {s t : State} {i : Instr} (h : exec i s = .next t) :
    ((∀ a, stackAddr s i = some a → a < s.cfg.memSize) ∧ t = completed s i) ∨
    (∃ a, stackAddr s i = some a ∧ s.cfg.memSize ≤ a ∧ t = s.haltedWith .memoryFault a) := by
  rcases exec_cases s i with ⟨hin, hx⟩ | ⟨a, ha, hout, hx⟩
  · exact .inl ⟨hin, Host.Outcome.next.inj (h.symm.trans hx)⟩
  · exact .inr ⟨a, ha, hout, Host.Outcome.next.inj (h.symm.trans hx)⟩

/-- The stack pointer is a byte, so the byte needed lies below 256. -/
theorem stackAddr_lt {s : State} {i : Instr} {a : Nat} (h : stackAddr s i = some a) : a < 256 := by
  cases i <;> cases h
  case push | call => exact (s.sp - 1#8).isLt
  case pop | ret => exact s.sp.isLt

/-! ### What completion does to each piece of state -/

/-- Only HLT completes with another run state or record (R30, R140). -/
theorem completed_control {s : State} {i : Instr} (h : i ≠ .hlt) : ControlKept s (completed s i) := by
  cases i
  case hlt => exact absurd rfl h
  all_goals exact ⟨rfl, rfl, rfl, rfl⟩

theorem completed_cfg (s : State) (i : Instr) : (completed s i).cfg = s.cfg := by
  cases i <;> rfl

open Sys2Proof.Claims in
/-- The new program counter of an instruction that completes (R25). -/
theorem completed_pc_toNat {s : State} (hpc : s.pc.toNat < 256) (i : Instr) :
    (completed s i).pc.toNat = newPc s i := by
  cases i with
  | hlt => exact State.advance_pc_toNat hpc (by decide)
  | prn _ | push _ | pop _ => exact State.advance_pc_toNat (n := 1) hpc (by decide)
  | ldi _ _ | mul _ _ | add _ _ | cmp _ _ => exact State.advance_pc_toNat (n := 2) hpc (by decide)
  | call a =>
    rw [completed, State.setPc_pc, State.target_toNat, State.reg_setReg, apply_ite BitVec.toNat]
    rfl
  | ret => exact zext9_toNat _
  | jmp a => exact s.target_toNat a
  | jeq a => rw [completed, State.setPc_pc, apply_ite BitVec.toNat, State.target_toNat, State.pc_add_two_toNat hpc, newPc]
  | jne a => rw [completed, State.setPc_pc, apply_ite BitVec.toNat, State.target_toNat, State.pc_add_two_toNat hpc, newPc]

/-- The memory an instruction completes with where it began with `m`. -/
def memoryAfter (s : State) (m : Memory) : Instr → Memory
  | .push a => m.set (s.sp - 1#8).toNat ((s.setReg Reg.sp (s.sp - 1#8)).reg a)
  | .call _ => m.set (s.sp - 1#8).toNat s.returnByte
  | _ => m

theorem completed_mem (s : State) (i : Instr) : (completed s i).mem = memoryAfter s s.mem i := by
  cases i <;> rfl

/-- PUSH and CALL store one byte at the decremented SP, the same in every memory; no other instruction stores (R51). -/
theorem memoryAfter_cases (s : State) (i : Instr) :
    ((i.mnemonic = .push ∨ i.mnemonic = .call) ∧ stackAddr s i = some (s.sp - 1#8).toNat ∧
      ∃ v, ∀ m, memoryAfter s m i = m.set (s.sp - 1#8).toNat v) ∨
    ((i.mnemonic ≠ .push ∧ i.mnemonic ≠ .call) ∧ ∀ m, memoryAfter s m i = m) := by
  cases i with
  | push _ => exact .inl ⟨.inl rfl, rfl, _, fun _ => rfl⟩
  | call _ => exact .inl ⟨.inr rfl, rfl, _, fun _ => rfl⟩
  | hlt | ldi _ _ | prn _ | mul _ _ | add _ _ | pop _ | ret | cmp _ _ | jmp _ | jeq _ | jne _ =>
    exact .inr ⟨⟨nofun, nofun⟩, fun _ => rfl⟩

/-- With another memory, POP and RET finding the same byte in it at SP, an instruction completes in the same state but for
memory (R51). -/
theorem completed_with_mem {s : State} {i : Instr} {m : Memory}
    (h : i.mnemonic = .pop ∨ i.mnemonic = .ret → m.get s.sp.toNat = s.byteAt s.sp.toNat) :
    completed { s with mem := m } i = { completed s i with mem := memoryAfter s m i } := by
  cases i with
  | pop a =>
    rw [completed, completed, ← h (.inl rfl)]
    rfl
  | ret =>
    rw [completed, completed, ← h (.inr rfl)]
    rfl
  | hlt | ldi _ _ | prn _ | mul _ _ | add _ _ | push _ | call _ | cmp _ _ | jmp _ | jeq _ | jne _ => rfl

end Sys2Proof.Machine
end

section
/-! PROOFS. The statements about the step as a whole: that it runs the decoded instruction (R120), that it answers, that it
keeps the parameters (R37), and the program counter it leaves (R25). -/

open Sys2Proof.Claims

namespace Sys2Proof.Machine

/-- Settles O6, by the decoder's law on the bytes at `pc`. -/
theorem stepRunsDecodedInstruction : Obligations.StepRunsDecodedInstruction :=
  fun _ _ hc h => step_of_encode_prefix hc h

/-- Every execute phase answers a next state. -/
theorem exec_answers (i : Instr) (s : State) : ∃ t, exec i s = .next t := by
  rcases exec_cases s i with ⟨-, hx⟩ | ⟨a, -, -, hx⟩ <;> exact ⟨_, hx⟩

/-- A step of a machine of this spec answers a next state: itself in Halted, else the fault taken or what the execute phase
answers. -/
theorem step_answers {s : State} (hc : s.cfg.wf = true) : ∃ t, step s = .next t := by
  cases hr : s.run with
  | halted => exact ⟨s, step_halted hr⟩
  | running =>
    cases hf : s.fetch with
    | error f => exact ⟨s.raise f, step_fetch_error hr hc hf⟩
    | ok i =>
      rw [step_fetch_ok hr hc hf]
      exact exec_answers i s

/-- A Running machine with parameters outside the spec is refused for them (U10, R89). -/
theorem step_outsideSpec {s : State} (hr : s.run = .running) (hc : s.cfg.wf = false) :
    step s = .refused .configOutsideSpec := by
  simp [step, hr, hc]

/-- Settles O9: with legal parameters a step answers; without, it changes nothing in Halted and is refused in Running. -/
theorem stepAlwaysAnswers : Obligations.StepAlwaysAnswers := by
  intro s
  refine ⟨step_answers, ?_⟩
  cases hc : s.cfg.wf with
  | true =>
    obtain ⟨t, ht⟩ := step_answers hc
    rw [ht]
    exact ⟨nofun, nofun⟩
  | false =>
    cases hr : s.run with
    | halted =>
      rw [step_halted hr]
      exact ⟨nofun, nofun⟩
    | running =>
      rw [step_outsideSpec hr hc]
      exact ⟨nofun, fun r h => ⟨(Host.Outcome.refused.inj h).symm, rfl, rfl⟩⟩

theorem State.raise_cfg (s : State) (f : Fault) : (s.raise f).cfg = s.cfg := by cases f <;> rfl

theorem State.load_cfg (s : State) (k : Nat) (v : Byte) : (s.load k v).cfg = s.cfg := by
  rcases s.load_cases k v with ⟨-, h⟩ | ⟨-, h⟩ <;> rw [h]

/-- Settles O25: neither a fault taken nor an instruction, completed or faulted, writes the parameters. -/
theorem parametersFixed : Obligations.ParametersFixed := by
  refine ⟨fun s t h => ?_, State.load_cfg⟩
  rcases step_cases h with ⟨-, rfl⟩ | ⟨-, -, ⟨f, -, rfl⟩ | ⟨i, -, -, hx⟩⟩
  · rfl
  · exact s.raise_cfg f
  · rcases exec_next_cases hx with ⟨-, rfl⟩ | ⟨a, -, -, rfl⟩
    · exact completed_cfg s i
    · rfl

/-- Settles O26: an execute phase that does not fault completes, and a step that faults is no HLT, so it left the state
before with a halt record. -/
theorem newPcTable : Obligations.NewPcTable := by
  refine ⟨fun i s t _ hpc h hend => ?_, fun s t hr h hend => ?_⟩
  · rcases exec_next_cases h with ⟨-, rfl⟩ | ⟨a, -, -, rfl⟩
    · exact completed_pc_toNat hpc i
    · cases hend
  · rcases step_halts_cases hr h (State.halted_of_faultEnd hend) with ⟨hcause, -⟩ | ⟨c, n, -, rfl⟩
    · simp [State.faultEnd, hcause] at hend
    · rfl

end Sys2Proof.Machine
end

section
/-! PROOFS. The statements of non-interference: the halt record, which no step reads (R30, R31), and memory as data (R51). -/

namespace Sys2Proof.Machine

theorem stackAddr_withRecord (s : State) (c : Cause) (n : Pc) (i : Instr) :
    stackAddr (s.withRecord c n) i = stackAddr s i := by
  cases i <;> rfl

/-- A fault is taken over whatever record there was. -/
theorem State.raise_withRecord (s : State) (c : Cause) (n : Pc) (f : Fault) : (s.withRecord c n).raise f = s.raise f := by
  cases f <;> rfl

/-- HLT completes over whatever record there was; every other instruction completes beside it. -/
theorem completed_withRecord (s : State) (c : Cause) (n : Pc) (i : Instr) :
    completed (s.withRecord c n) i = if i = .hlt then completed s i else (completed s i).withRecord c n := by
  cases i <;> rfl

/-- In a Running machine, an instruction that leaves it Running keeps the record and does the same beside another; one that
halts it does the same over any record. -/
theorem exec_withRecord {s t : State} {i : Instr} (hr : s.run = .running) (h : exec i s = .next t) (c : Cause) (n : Pc) :
    (t.run = .running → t.cause = s.cause ∧ t.info = s.info ∧ exec i (s.withRecord c n) = .next (t.withRecord c n)) ∧
    (t.run = .halted → exec i (s.withRecord c n) = .next t) := by
  rcases exec_next_cases h with ⟨hin, rfl⟩ | ⟨a, ha, hout, rfl⟩
  · have hx : exec i (s.withRecord c n) = .next (completed (s.withRecord c n) i) :=
      exec_completed fun a ha => hin a (stackAddr_withRecord s c n i ▸ ha)
    rw [hx, completed_withRecord]
    by_cases hi : i = .hlt
    · subst hi
      exact ⟨nofun, fun _ => rfl⟩
    · obtain ⟨hrun, hcause, hinfo, -⟩ := completed_control (s := s) hi
      rw [if_neg hi]
      refine ⟨fun _ => ⟨hcause, hinfo, rfl⟩, fun ht => ?_⟩
      cases ht.symm.trans (hrun.trans hr)
  · exact ⟨nofun, fun _ => exec_stackFault ((stackAddr_withRecord s c n i).trans ha) hout⟩

/-- Settles O29: the fetch does not read the record, a fault overwrites it, and `exec_withRecord` is the execute phase. -/
theorem haltRecordUnread : Obligations.HaltRecordUnread := by
  intro s t c n hr h
  have hfetch : (s.withRecord c n).fetch = s.fetch := State.fetch_congr rfl rfl rfl
  rcases step_cases h with ⟨hh, -⟩ | ⟨-, hc, ⟨f, hf, rfl⟩ | ⟨i, -, hf, hx⟩⟩
  · cases hr.symm.trans hh
  · refine ⟨fun ht => (nomatch (s.raise_run f).symm.trans ht), fun _ => ?_⟩
    rw [step_fetch_error (s := s.withRecord c n) hr hc (hfetch.trans hf), State.raise_withRecord]
  · rw [step_fetch_ok (s := s.withRecord c n) hr hc (hfetch.trans hf)]
    exact exec_withRecord hr hx c n

/-- A byte of memory that an instruction changes is the one PUSH or CALL stores, at SP - 1 inside memory (R51). -/
theorem exec_changes_byte {i : Instr} {s t : State} {k : Nat} (h : exec i s = .next t) (hk : t.byteAt k ≠ s.byteAt k) :
    (i.mnemonic = .push ∨ i.mnemonic = .call) ∧ k = (s.sp - 1#8).toNat ∧ k < s.cfg.memSize := by
  rcases exec_next_cases h with ⟨hin, rfl⟩ | ⟨a, -, -, rfl⟩
  · rw [State.byteAt, completed_mem] at hk
    rcases memoryAfter_cases s i with ⟨hi, haddr, v, hset⟩ | ⟨-, hsame⟩
    · have hk' : k = (s.sp - 1#8).toNat := by
        by_contra hne
        exact hk (by rw [hset, Memory.get_set_ne s.mem v hne, State.byteAt])
      exact ⟨hi, hk', hk' ▸ hin _ haddr⟩
    · exact absurd (by rw [hsame, State.byteAt]) hk
  · exact absurd rfl hk

theorem stackAddr_with_mem (s : State) (m : Memory) (i : Instr) : stackAddr { s with mem := m } i = stackAddr s i := by
  cases i <;> rfl

/-- Settles O30: `exec_changes_byte`; and with another memory an instruction faults the same or completes in the same state
but for memory, to which PUSH and CALL make the same write. -/
theorem memoryAsData : Obligations.MemoryAsData := by
  refine ⟨fun _ _ _ _ => exec_changes_byte, fun i s t m h hread => ?_⟩
  rcases exec_next_cases h with ⟨hin, rfl⟩ | ⟨a, ha, hout, rfl⟩
  · refine ⟨memoryAfter s m i, ?_, ?_⟩
    · rw [← completed_with_mem hread]
      exact exec_completed fun a ha => hin a (stackAddr_with_mem s m i ▸ ha)
    · rw [State.byteAt, completed_mem]
      rcases memoryAfter_cases s i with ⟨hi, -, v, hset⟩ | ⟨⟨hpush, hcall⟩, hsame⟩
      · refine ⟨fun hp hc => (hi.elim hp hc).elim, fun _ hs hm _ => ?_⟩
        rw [hset, hset, Memory.get_set_self hm, Memory.get_set_self hs]
      · exact ⟨fun _ _ => hsame m, fun hi => (hi.elim hpush hcall).elim⟩
  · refine ⟨m, exec_stackFault ((stackAddr_with_mem s m i).trans ha) hout, fun _ _ => rfl, fun hi _ _ hin => ?_⟩
    rcases memoryAfter_cases s i with ⟨-, haddr, -⟩ | ⟨⟨hpush, hcall⟩, -⟩
    · cases ha.symm.trans haddr
      omega
    · exact (hi.elim hpush hcall).elim

end Sys2Proof.Machine
end

section
/-! SUPPORT. The faults a step can raise in fetch and decode, and the addresses they carry: every MemoryFault's lies outside
memory and fits R31's bound for `info`. -/

namespace Sys2Proof

/-- What a decode error says of the operand bytes it was raised for: a missing operand is the one after those that are there,
A or B (R113). -/
def DecodeError.Explains (ops : List Byte) : DecodeError → Prop
  | .illegal _ => True
  | .operandMissing k => k = ops.length + 1 ∧ k ≤ 2
  | .noOpcode => False

/-- A byte that names no register is an illegal operand wherever it stands (R85). -/
theorem explains_of_regOfByte {b : Byte} {e : DecodeError} (h : regOfByte b = .error e) (ops : List Byte) :
    e.Explains ops := by
  rcases Nat.lt_or_ge b.toNat 8 with hb | hb
  · cases h.symm.trans (regOfByte_legal hb)
  · cases h.symm.trans (regOfByte_illegal hb)
    trivial

theorem operandsF1_error {mk : Reg → Instr} {ops : List Byte} {e : DecodeError} (h : operandsF1 mk ops = .error e) :
    e.Explains ops := by
  match ops with
  | [] =>
    cases h
    exact ⟨rfl, by decide⟩
  | a :: rest =>
    cases ha : regOfByte a with
    | error e' =>
      simp only [operandsF1, ha, Except.error.injEq] at h
      exact h ▸ explains_of_regOfByte ha _
    | ok r => simp [operandsF1, ha] at h

theorem operandsF2Regs_error {mk : Reg → Reg → Instr} {ops : List Byte} {e : DecodeError}
    (h : operandsF2Regs mk ops = .error e) : e.Explains ops := by
  match ops with
  | [] | [_] =>
    cases h
    exact ⟨rfl, by decide⟩
  | a :: b :: rest =>
    cases ha : regOfByte a with
    | error e' =>
      simp only [operandsF2Regs, ha, Except.error.injEq] at h
      exact h ▸ explains_of_regOfByte ha _
    | ok r =>
      cases hb : regOfByte b with
      | error e' =>
        simp only [operandsF2Regs, ha, hb, Except.error.injEq] at h
        exact h ▸ explains_of_regOfByte hb _
      | ok q => simp [operandsF2Regs, ha, hb] at h

theorem operandsF2Imm_error {mk : Reg → Byte → Instr} {ops : List Byte} {e : DecodeError}
    (h : operandsF2Imm mk ops = .error e) : e.Explains ops := by
  match ops with
  | [] | [_] =>
    cases h
    exact ⟨rfl, by decide⟩
  | a :: b :: rest =>
    cases ha : regOfByte a with
    | error e' =>
      simp only [operandsF2Imm, ha, Except.error.injEq] at h
      exact h ▸ explains_of_regOfByte ha _
    | ok r => simp [operandsF2Imm, ha] at h

theorem decodeOperands_error {m : Mnemonic} {ops : List Byte} {e : DecodeError} (h : decodeOperands m ops = .error e) :
    e.Explains ops := by
  cases m
  case hlt | ret => cases h
  case ldi => exact operandsF2Imm_error h
  case mul | add | cmp => exact operandsF2Regs_error h
  case prn | push | pop | call | jmp | jeq | jne => exact operandsF1_error h

/-- The decoder's errors on an opcode byte and the bytes after it. -/
theorem decode_cons_error {c : Config} {ir : Byte} {ops : List Byte} {e : DecodeError}
    (h : decode c (ir :: ops) = .error e) : e.Explains ops := by
  cases hm : c.mnemonicOf ir with
  | none =>
    rw [decode, hm] at h
    cases h
    trivial
  | some m =>
    rw [decode, hm] at h
    exact decodeOperands_error h

end Sys2Proof

namespace Sys2Proof.Machine

/-- A fault whose number R31 lets `info` hold: for a MemoryFault an address outside memory, at most 258. -/
def Fault.Recordable (c : Config) : Fault → Prop
  | .memoryFault a => c.memSize ≤ a ∧ a ≤ 258
  | .illegalInstruction _ => True

theorem State.memRead_error {s : State} {a : Nat} {f : Fault} (h : s.memRead a = .error f) :
    f = .memoryFault a ∧ s.cfg.memSize ≤ a := by
  rcases s.memRead_cases a with ⟨-, e⟩ | ⟨ha, e⟩
  · cases h.symm.trans e
  · exact ⟨Except.error.inj (h.symm.trans e), ha⟩

theorem State.memRead_ok {s : State} {a : Nat} {v : Byte} (h : s.memRead a = .ok v) : a < s.cfg.memSize := by
  rcases s.memRead_cases a with ⟨ha, -⟩ | ⟨-, e⟩
  · exact ha
  · cases h.symm.trans e

theorem State.readAhead_error {s : State} {a : Nat} {f : Fault} (h : s.readAhead a = .error f) :
    f = .memoryFault a ∧ s.cfg.memSize ≤ a := by
  rcases s.readAhead_cases a with ⟨-, e⟩ | ⟨-, -, e⟩ | ⟨ha, -, e⟩
  · cases h.symm.trans e
  · cases h.symm.trans e
  · exact ⟨Except.error.inj (h.symm.trans e), ha⟩

/-- The fetch faults at `pc`, which may be 258, or on reading ahead of an opcode byte that is there (R111, R112). -/
theorem State.fetchBytes_error {s : State} (hc : s.cfg.wf = true) (hpc : s.pc.toNat ≤ 258) {f : Fault}
    (h : s.fetchBytes = .error f) : f.Recordable s.cfg := by
  have hsize := (Config.memSize_bounds hc).2
  cases e0 : s.memRead s.pc.toNat with
  | error g =>
    obtain ⟨rfl, h0⟩ := State.memRead_error e0
    rw [State.fetchBytes, e0] at h
    cases h
    exact ⟨h0, hpc⟩
  | ok ir =>
    have h0 := State.memRead_ok e0
    cases e1 : s.readAhead (s.pc.toNat + 1) with
    | error g =>
      obtain ⟨rfl, h1⟩ := State.readAhead_error e1
      simp only [State.fetchBytes, e0, e1, Except.error.injEq] at h
      exact h ▸ ⟨h1, by omega⟩
    | ok a =>
      cases e2 : s.readAhead (s.pc.toNat + 2) with
      | error g =>
        obtain ⟨rfl, h2⟩ := State.readAhead_error e2
        simp only [State.fetchBytes, e0, e1, e2, Except.error.injEq] at h
        exact h ▸ ⟨h2, by omega⟩
      | ok b => simp [State.fetchBytes, e0, e1, e2] at h

/-- Where the instruction's bytes end before the third, memory ends there. -/
theorem State.memSize_le_of_codeBytes {s : State} {ir : Byte} {ops : List Byte} (h : s.codeBytes = ir :: ops)
    (hlen : ops.length + 1 ≤ 2) : s.cfg.memSize ≤ s.pc.toNat + (ops.length + 1) := by
  by_contra hin
  obtain hk | hk : ops.length = 0 ∨ ops.length = 1 := by omega
  · obtain rfl := List.eq_nil_of_length_eq_zero hk
    cases h.symm.trans (State.codeBytes_of_slotA (by omega))
  · obtain ⟨a, rfl⟩ := List.length_eq_one_iff.1 hk
    cases h.symm.trans (State.codeBytes_of_slotB (by omega))

/-- Every fault of fetch and decode can be recorded, from any `pc` up to 258. -/
theorem State.fetch_error {s : State} (hr : s.run = .running) (hc : s.cfg.wf = true) (hpc : s.pc.toNat ≤ 258) {f : Fault}
    (h : s.fetch = .error f) : f.Recordable s.cfg := by
  cases hb : s.fetchBytes with
  | error g =>
    rw [State.fetch, hb] at h
    cases h
    exact State.fetchBytes_error hc hpc hb
  | ok bs =>
    have hcan := State.canFetch_of_fetchBytes hr hc hb
    have hsize := (Config.memSize_bounds hc).2
    have hin := hcan.opcodeInside
    obtain ⟨ops, hbytes⟩ := State.codeBytes_eq_cons hin
    cases hd : decode s.cfg (s.byteAt s.pc.toNat :: ops) with
    | ok i => simp [State.fetch, State.fetchBytes_of_canFetch hcan, hbytes, hd] at h
    | error e =>
      simp only [State.fetch, State.fetchBytes_of_canFetch hcan, hbytes, hd, Except.error.injEq] at h
      subst h
      have he := decode_cons_error hd
      cases e with
      | noOpcode => exact he.elim
      | illegal v => trivial
      | operandMissing k =>
        obtain ⟨rfl, hk⟩ := he
        exact ⟨State.memSize_le_of_codeBytes hbytes hk, by omega⟩

end Sys2Proof.Machine
end

section
/-! SUPPORT. The invariant, operation by operation: a fault taken, HLT, an instruction that keeps control, the host's load,
and reset. -/

open Sys2Proof.Claims

namespace Sys2Proof.Machine

/-- Taking a fault that can be recorded writes a sound record and keeps all else (R31, R205). -/
theorem State.Inv.raise {s : State} (hs : s.Inv) {f : Fault} (hf : f.Recordable s.cfg) : (s.raise f).Inv := by
  cases f with
  | memoryFault a =>
    obtain ⟨hout, ha⟩ := hf
    have hinfo : (s.raise (.memoryFault a)).info.toNat = a := Nat.mod_eq_of_lt (by omega)
    exact { hs with
      runningRecord := nofun
      haltedRecord := fun _ => nofun
      hltRecord := nofun
      illegalRecord := nofun
      memoryRecord := fun _ => hinfo.symm ▸ ⟨hout, ha⟩ }
  | illegalInstruction v =>
    have hinfo : (s.raise (.illegalInstruction v)).info.toNat = v.toNat := zext9_toNat v
    exact { hs with
      runningRecord := nofun
      haltedRecord := fun _ => nofun
      hltRecord := nofun
      illegalRecord := fun _ => hinfo.trans_le (Nat.le_of_lt_succ v.isLt)
      memoryRecord := nofun }

/-- HLT records the address of its own byte, which lies in memory, and leaves `pc` one past it (R31, R140). -/
theorem State.Inv.hlt {s : State} (hs : s.Inv) (hin : s.pc.toNat < s.cfg.memSize) : (completed s .hlt).Inv := by
  have hbound : s.pc.toNat < 256 := hin.trans_le (Config.memSize_bounds hs.legal).2
  have hpc : (completed s .hlt).pc.toNat = s.pc.toNat + 1 := completed_pc_toNat hbound .hlt
  exact { hs with
    pcRange := hpc.trans_le (by omega)
    runningRecord := nofun
    haltedRecord := fun _ => nofun
    hltRecord := fun _ => ⟨hpc, hin⟩
    illegalRecord := nofun
    memoryRecord := nofun }

/-- What keeps control, and leaves `pc` and memory sound, keeps the invariant: the record is the one there was. -/
theorem State.Inv.of_controlKept {s t : State} (hs : s.Inv) (hk : ControlKept s t) (hrun : s.run = .running)
    (hmem : t.mem.wf = true) (hinside : ∀ cell ∈ t.mem, cell.1 < s.cfg.memSize) (hpc : t.pc.toNat ≤ 258) : t.Inv := by
  obtain ⟨hr, hcause, hinfo, hcfg⟩ := hk
  obtain ⟨hnone, hzero⟩ := hs.runningRecord hrun
  have hcause : t.cause = .none := hcause.trans hnone
  refine ⟨hcfg ▸ hs.legal, hmem, hcfg ▸ hinside, hpc, fun _ => ⟨hcause, hinfo.trans hzero⟩, fun ht => ?_, fun h => ?_,
    fun h => ?_, fun h => ?_⟩
  · cases ht.symm.trans (hr.trans hrun)
  all_goals cases hcause.symm.trans h

/-- A write inside memory lists no address outside it. -/
theorem Memory.set_inside {m : Memory} {n a : Nat} (hm : ∀ cell ∈ m, cell.1 < n) (ha : a < n) (v : Byte) :
    ∀ cell ∈ m.set a v, cell.1 < n := by
  intro cell hcell
  rcases Memory.mem_set hcell with h | h
  · exact h.trans_lt ha
  · exact hm cell h

/-- The new program counter is at most three past an address of memory (R25, R26). -/
theorem newPc_le {s : State} (hpc : s.pc.toNat < 256) (i : Instr) : newPc s i ≤ 258 := by
  have hbyte (v : Byte) : v.toNat ≤ 258 := v.isLt.le.trans (by decide)
  cases i with
  | hlt | ldi _ _ | prn _ | mul _ _ | add _ _ | push _ | pop _ | cmp _ _ =>
    rw [newPc]
    omega
  | ret | jmp _ => exact hbyte _
  | call r =>
    rw [newPc]
    split <;> exact hbyte _
  | jeq r | jne r =>
    have hreg := hbyte (s.reg r)
    rw [newPc]
    split <;> omega

/-- An instruction that completes keeps the invariant. -/
theorem State.Inv.completed {s : State} (hs : s.Inv) (hrun : s.run = .running) (hin : s.pc.toNat < s.cfg.memSize)
    {i : Instr} (haddr : ∀ a, stackAddr s i = some a → a < s.cfg.memSize) : (completed s i).Inv := by
  by_cases hi : i = .hlt
  · subst hi
    exact hs.hlt hin
  have hpc : s.pc.toNat < 256 := hin.trans_le (Config.memSize_bounds hs.legal).2
  refine hs.of_controlKept (completed_control hi) hrun ?_ ?_ ((completed_pc_toNat hpc i).trans_le (newPc_le hpc i))
  all_goals
    rw [completed_mem]
    rcases memoryAfter_cases s i with ⟨-, hstack, v, hset⟩ | ⟨-, hsame⟩
  · rw [hset]
    exact Memory.wf_set hs.memCanonical _ v
  · rw [hsame]
    exact hs.memCanonical
  · rw [hset]
    exact Memory.set_inside hs.memInside (haddr _ hstack) v
  · rw [hsame]
    exact hs.memInside

/-- An execute phase keeps the invariant, completed or faulted. -/
theorem State.Inv.exec {s t : State} (hs : s.Inv) (hc : s.CanFetch) {i : Instr} (h : exec i s = .next t) : t.Inv := by
  rcases exec_next_cases h with ⟨haddr, rfl⟩ | ⟨a, ha, hout, rfl⟩
  · exact hs.completed hc.running hc.opcodeInside haddr
  · exact hs.raise (f := .memoryFault a) ⟨hout, (stackAddr_lt ha).le.trans (by decide)⟩

/-- Every step keeps the invariant. -/
theorem State.Inv.step {s t : State} (hs : s.Inv) (h : step s = .next t) : t.Inv := by
  rcases step_cases h with ⟨-, rfl⟩ | ⟨hr, hc, ⟨f, hf, rfl⟩ | ⟨i, hcan, -, hx⟩⟩
  · exact hs
  · exact hs.raise (State.fetch_error hr hc hs.pcRange hf)
  · exact hs.exec hcan hx

/-- A load inside memory keeps the invariant, and a load outside does nothing (R237). -/
theorem State.Inv.load {s : State} (hs : s.Inv) (k : Nat) (v : Byte) : (s.load k v).Inv := by
  rcases s.load_cases k v with ⟨hk, h⟩ | ⟨-, h⟩ <;> rw [h]
  · exact { hs with
      memCanonical := Memory.wf_set hs.memCanonical k v
      memInside := Memory.set_inside hs.memInside hk v }
  · exact hs

theorem State.Inv.loadFrom {s : State} (hs : s.Inv) (a : Nat) (vs : List Byte) : (s.loadFrom a vs).Inv := by
  induction vs generalizing s a with
  | nil => exact hs
  | cons v vs ih => exact ih (hs.load a v) (a + 1)

/-- The state after reset is sound: no byte is listed, and the machine is Running with no record (R230). -/
theorem State.Inv.construct {c : Config} (hc : c.wf = true) : (State.construct c).Inv where
  legal := hc
  memCanonical := State.construct_mem_wf c
  memInside := nofun
  pcRange := Nat.zero_le _
  runningRecord _ := ⟨rfl, rfl⟩
  haltedRecord := nofun
  hltRecord := nofun
  illegalRecord := nofun
  memoryRecord := nofun

end Sys2Proof.Machine
end

section
/-! PROOFS. The statements about the invariant: every step, the host's load and reset, and so any number of steps. -/

namespace Sys2Proof.Machine

/-- Settles O21: a step takes a fault that can be recorded, or runs an instruction, which completes or takes such a fault. -/
theorem stepKeepsInv : Obligations.StepKeepsInv :=
  fun _ _ => State.Inv.step

/-- Settles O22: a load writes one byte inside memory, or nothing. -/
theorem loadKeepsInv : Obligations.LoadKeepsInv :=
  fun _ k v hs => hs.load k v

/-- Settles O23: the reset state of every legal assignment is sound, and the defaults are one. -/
theorem resetIsSound : Obligations.ResetIsSound :=
  ⟨fun _ => .construct, .construct Config.default_wf⟩

/-- A run goes on from the state its first step answers. -/
theorem run_succ_of_next {M : Host.Core} {s t : M.State} (h : M.step s = .next t) (k : Nat) :
    M.run (k + 1) s = M.run k t := by
  rw [Host.Core.run, h]

/-- Settles O24, by induction on the number of steps: a sound machine's step answers, and what it answers is sound. -/
theorem runsNeverStop : Obligations.RunsNeverStop := by
  intro k
  induction k with
  | zero => exact fun s hs => ⟨s, rfl, hs⟩
  | succ k ih =>
    intro s hs
    obtain ⟨t, ht⟩ := step_answers hs.legal
    obtain ⟨u, hu, hinv⟩ := ih t (hs.step ht)
    exact ⟨u, (run_succ_of_next ht k).trans hu, hinv⟩

end Sys2Proof.Machine
end

section
/-! PROOFS. The statements about reset (R230), the program image (R233) and the console's line end (R142). -/

namespace Sys2Proof.Machine

/-- The registers after reset below SP are the parameters (R230). -/
theorem State.construct_reg (c : Config) (r : Fin 7) : (State.construct c).reg r.castSucc = c.resetR[r] :=
  Vector.getElem_push_lt r.isLt

theorem State.construct_sp (c : Config) : (State.construct c).sp = c.resetSp :=
  Vector.getElem_push_eq

/-- Settles O16, field by field: no byte is listed, and SP is the last of the registers. -/
theorem resetState : Obligations.ResetState :=
  fun c => ⟨fun _ => rfl, rfl, rfl, rfl, rfl, rfl, State.construct_reg c, State.construct_sp c, rfl, rfl⟩

/-- Loads write memory and nothing else (R237). -/
theorem State.loadFrom_eq_with_mem (s : State) (a : Nat) (vs : List Byte) :
    s.loadFrom a vs = { s with mem := (s.loadFrom a vs).mem } := by
  induction vs generalizing s a with
  | nil => rfl
  | cons v vs ih =>
    rw [State.loadFrom, ih]
    rcases s.load_cases a v with ⟨-, h⟩ | ⟨-, h⟩ <;> rw [h]

theorem State.byteAt_load_ne (s : State) {a k : Nat} (v : Byte) (h : k ≠ a) : (s.load a v).byteAt k = s.byteAt k := by
  rcases s.load_cases a v with ⟨-, e⟩ | ⟨-, e⟩ <;> rw [e]
  exact Memory.get_set_ne s.mem v h

theorem State.byteAt_load_self {s : State} (hm : s.mem.wf = true) {a : Nat} (h : a < s.cfg.memSize) (v : Byte) :
    (s.load a v).byteAt a = v := by
  have hw := State.memWrite_inside h v
  rw [State.load_of_memWrite_ok hw, State.byteAt_memWrite_self hm hw]

/-- Loading from `a` on leaves every byte below `a` alone. -/
theorem State.byteAt_loadFrom_below (s : State) {a k : Nat} (hk : k < a) (vs : List Byte) :
    (s.loadFrom a vs).byteAt k = s.byteAt k := by
  induction vs generalizing s a with
  | nil => rfl
  | cons v vs ih => rw [State.loadFrom, ih _ (Nat.lt_succ_of_lt hk), State.byteAt_load_ne s v hk.ne]

/-- Loading bytes that fit puts the first of them at `a`, the next after it, and leaves what lies beyond them alone. -/
theorem State.byteAt_loadFrom {s : State} (hm : s.mem.wf = true) {a : Nat} {vs : List Byte}
    (hfit : a + vs.length ≤ s.cfg.memSize) (j : Nat) :
    (s.loadFrom a vs).byteAt (a + j) = vs.getD j (s.byteAt (a + j)) := by
  induction vs generalizing s a j with
  | nil => rfl
  | cons v vs ih =>
    rw [List.length_cons] at hfit
    rw [State.loadFrom]
    cases j with
    | zero =>
      rw [Nat.add_zero a, State.byteAt_loadFrom_below _ a.lt_add_one, State.byteAt_load_self hm (by omega),
        List.getD_cons_zero]
    | succ j =>
      have hfit' : a + 1 + vs.length ≤ (s.load a v).cfg.memSize := by
        rw [State.load_cfg]
        omega
      rw [show a + (j + 1) = a + 1 + j by omega, ih (State.load_keeps_wf hm a v) hfit',
        State.byteAt_load_ne s v (by omega), List.getD_cons_succ]

/-- Settles O17: the loads of `boot` start from the reset memory, which reads as `0x00` beyond the image. -/
theorem bootInstallsImage : Obligations.BootInstallsImage := by
  refine fun c image hc hfit =>
    ⟨fun k => ?_, State.loadFrom_eq_with_mem _ 0 image, (State.Inv.construct hc).loadFrom 0 image⟩
  have h := State.byteAt_loadFrom (State.construct_mem_wf c) (a := 0) (by simpa using hfit) k
  rwa [Nat.zero_add] at h

/-- Settles O49: a channel of one value is its line, the line end and no more. -/
theorem consoleLineEnd : Obligations.ConsoleLineEnd := by
  intro v
  rw [consoleText_cons]
  exact List.append_nil _

end Sys2Proof.Machine
end

section
/-! PROOFS. The statements about several instructions in a row: arithmetic (R152), PUSH and POP (R163), CALL and RET (R172),
CMP and a branch (R184), and the fetch of a pushed byte (R64). -/

namespace Sys2Proof.Machine

/-- The ALU's sum and product are those of bytes as integers modulo 256 (R152). -/
theorem aluAdd_eq_add (u v : Byte) : aluAdd u v = u + v := BitVec.eq_of_toNat_eq (by simp)

theorem aluMul_eq_mul (u v : Byte) : aluMul u v = u * v := BitVec.eq_of_toNat_eq (by simp)

/-- Settles O44: after the two loads ADD sums what the registers hold, which for A = B is the second value twice; read as
signed bytes, sum and product are those of the integers modulo 256. -/
theorem arithmeticWraps : Obligations.ArithmeticWraps := by
  refine ⟨fun s a b v w => ⟨_, _, _, rfl, rfl, rfl, fun hab => ?_, fun hab => ?_⟩, fun s a b => ⟨_, _, rfl, rfl, ?_, ?_⟩⟩
  · rw [State.advance_reg, State.reg_setReg_self, aluAdd_toNat]
    simp [hab]
  · subst hab
    rw [State.advance_reg, State.reg_setReg_self, aluAdd_toNat]
    simp [Nat.two_mul]
  · rw [State.advance_reg, State.reg_setReg_self, aluAdd_eq_add, BitVec.toInt_add]
  · rw [State.advance_reg, State.reg_setReg_self, aluMul_eq_mul, BitVec.toInt_mul]

/-- PUSH stores `x[A]` as it reads after the decrement: the decremented SP for A = 7, the old value for any other (R160). -/
theorem exec_push_stores {s : State} (h : (s.sp - 1#8).toNat < s.cfg.memSize) (a : Reg) :
    exec (.push a) s = .next ((s.pushed (if a = 7 then s.sp - 1#8 else s.reg a)).advance 1) := by
  rw [exec_push_inside h, State.reg_setReg]

/-- Settles O45: POP finds SP where PUSH left it and reads the pushed byte there. -/
theorem pushThenPop : Obligations.PushThenPop := by
  intro s a b hm hin
  have hpush := exec_push_stores hin a
  generalize hv : (if a = 7 then s.sp - 1#8 else s.reg a) = v at hpush ⊢
  have hsp : ((s.pushed v).advance 1).sp = s.sp - 1#8 := s.pushed_sp v
  have hbyte : ((s.pushed v).advance 1).byteAt (s.sp - 1#8).toNat = v := State.byteAt_pushed_self hm v
  have hpop := exec_pop_inside (s := (s.pushed v).advance 1) (by rw [hsp]; exact hin) b
  rw [hsp, hbyte] at hpop
  have moved (hb : b ≠ 7) : ((((s.pushed v).advance 1).setReg b v).spUp.advance 1).reg b = v ∧
      ((((s.pushed v).advance 1).setReg b v).spUp.advance 1).sp = s.sp := by
    obtain ⟨hreg, hup⟩ := State.spUp_setReg_ne (s := (s.pushed v).advance 1) v hb
    exact ⟨hreg, hup.trans (by rw [hsp, BitVec.sub_add_cancel])⟩
  refine ⟨_, _, hpush, hpop, fun ha hb => ?_, fun ha hb => ?_, fun ha hb => ?_, hbyte⟩
  · rw [if_neg ha] at hv
    exact hv ▸ moved hb
  · rw [if_pos ha] at hv
    exact hv ▸ moved hb
  · rw [if_neg ha] at hv
    exact hv ▸ State.spUp_setReg_sp v hb

/-- Settles O46, from the rules of CALL and RET: at 253 or below the return address fits the stored byte. -/
theorem callThenRet : Obligations.CallThenRet := by
  intro s a hm hpc hin
  obtain ⟨-, -, call, -⟩ := callRule
  obtain ⟨-, -, ret, -⟩ := retRule
  obtain ⟨t, hcall, htsp, -, hbyte, -, -, -, -, -, -, -, htcfg⟩ := call s a hm hin
  refine ⟨t, hcall, fun u hucfg husp hubyte => ?_⟩
  rw [htsp] at husp hubyte
  obtain ⟨v, hret, hvpc, hvsp, -⟩ := ret u (by rw [husp, hucfg, htcfg]; exact hin)
  refine ⟨v, hret, ?_, ?_⟩
  · rw [hvpc, husp, hubyte, hbyte, Nat.mod_eq_of_lt (by omega)]
  · rw [hvsp, husp, BitVec.sub_add_cancel]

/-- Settles O47, from the rules of CMP, JEQ and JNE: both branches run after the CMP, which kept the registers, and E
chooses for both. -/
theorem compareThenBranch : Obligations.CompareThenBranch := by
  intro s a b c hpc
  obtain ⟨-, -, cmp⟩ := cmpRule
  obtain ⟨-, -, jeq⟩ := jeqRule
  obtain ⟨-, -, jne⟩ := jneRule
  obtain ⟨t, hcmp, hset, hclear, htpc, hregs, -⟩ := cmp s a b (by omega)
  have hc : t.reg c = s.reg c := hregs c List.not_mem_nil
  obtain ⟨u, hjeq, hu1, hu0, -⟩ := jeq t c (by omega)
  obtain ⟨v, hjne, hv0, hv1, -⟩ := jne t c (by omega)
  rw [hc] at hu1 hv0
  rw [htpc] at hu0 hv1
  refine ⟨t, u, v, hcmp, hjeq, hjne, ⟨fun he => ?_, hset⟩, fun h => ⟨hu1 (hset h), hv1 (hset h)⟩,
    fun h => ⟨hu0 (hclear h), hv0 (hclear h)⟩⟩
  by_contra hne
  cases he.symm.trans (hclear hne)

/-- Settles O48, from PUSH's rule: the step is the PUSH as fetched, and the byte it stored is what memory then holds, for the
next fetch as for any read. -/
theorem pushedByteIsFetched : Obligations.PushedByteIsFetched := by
  intro s a hc hm hcode hin
  obtain ⟨-, -, push, -⟩ := pushRule
  have hbound : s.pc.toNat < 256 := hc.opcodeInside.trans_le (Config.memSize_bounds hc.legal).2
  obtain ⟨t, hpush, -, -, hbyte, -, hpc, -, -, -, -, -, hcfg⟩ := push s a hm hbound hin
  have hin' : (s.sp - 1#8).toNat < t.cfg.memSize := hcfg ▸ hin
  refine ⟨t, (step_of_encode_prefix hc hcode).trans hpush, hpc, ?_, fun hnext => ?_⟩
  · rw [State.memRead_inside hin', hbyte]
  · rw [hnext, ← hpc] at hin' hbyte
    obtain ⟨rest, hrest⟩ := State.codeBytes_eq_cons hin'
    rw [hrest, List.head?_cons, hbyte]

end Sys2Proof.Machine
end
